-- ==== Sys2Proof/Word.lean ====
section
/-!
DEFINITION. The value types of CORE (`00_scope.md` rules R8, R9): words, bytes, command words.
-/

namespace Sys2Proof

/-- `u32`: every generator word, accumulator and working variable (R9). Addition wraps (R10). -/
abbrev Word := BitVec 32

/-- `u8`: every character, seed byte, `SHIFT`, `MODULUS` and `START` operand (R9). -/
abbrev Byte := BitVec 8

/-- The 64-bit word the host writes to `CMD` (R80). -/
abbrev CmdWord := BitVec 64

end Sys2Proof
end

