-- ==== Sys2Proof/Config.lean ====
section
/-!
DEFINITION. What one implementation of CORE fixes (`00_scope.md` rule R7) and the free values: the
parts of the state to which `10_state.md` rule R36 gives no value at reset.
-/

namespace Sys2Proof

/-- The default of the parameter `MAXLEN` (R7, D14). -/
def Config.maxLenDefault : Nat := 4096

/-- The least `MAXLEN` an instance may have (R7, D14): a full seed fits `IBUF`. -/
def Config.maxLenLow : Nat := 256

/-- The greatest `MAXLEN` an instance may have (R7, D14): the 16-bit `LEN` reaches it. -/
def Config.maxLenHigh : Nat := 65535

/-- What a byte of `IBUF` or `OBUF` that is not listed reads as. DESIGN CHOICE, unsafe (log entry 3):
R36 leaves the bytes after reset unspecified. No statement rests on this value. -/
def Config.fillByte : Byte := 0

/-- FREE VALUE (log entry 2): word `i` of `mm` at `State.reset`. R36: "no value". Nothing constrains it. -/
opaque Config.powerOnMm : Nat → Word

/-- FREE VALUE (log entry 2): word `i` of `rsl` at `State.reset`. R36: "no value". Nothing constrains it. -/
opaque Config.powerOnRsl : Nat → Word

/-- FREE VALUE (log entry 2): `cursor` at `State.reset`. R36: "no value". Nothing constrains it. -/
opaque Config.powerOnCursor : Fin 256

/-- FREE VALUE (log entry 2): `accA` at `State.reset`. R36: "no value". Nothing constrains it. -/
opaque Config.powerOnAccA : Word

/-- FREE VALUE (log entry 2): `accB` at `State.reset`. R36: "no value". Nothing constrains it. -/
opaque Config.powerOnAccB : Word

/-- FREE VALUE (log entry 2): `accC` at `State.reset`. R36: "no value". Nothing constrains it. -/
opaque Config.powerOnAccC : Word

end Sys2Proof
end

