-- ==== Sys2Proof/Syntax.lean ====
section
/-!
DEFINITION. The six commands of CORE (`30_encoding.md` rules R83, R88), one constructor per row of
the opcode table, and the cipher mode they carry (R85).
-/

namespace Sys2Proof

/-- `CipherMode` (R38, R85): {None, Encipher, Decipher}. The fourth value of the 2-bit field is
reserved and never leaves the decoder. -/
inductive CipherMode where
  | none
  | encipher
  | decipher
  deriving DecidableEq, Repr

/-- A decoded command (R88). `len` is the 16-bit field `LEN`, a count of bytes in `IBUF`. -/
inductive Instr where
  /-- `SEED f, len` (R117). -/
  | seed (f : Bool) (len : Nat)
  /-- `NEXTW` (R122). -/
  | nextw
  /-- `NEXTC` (R125). -/
  | nextc
  /-- `VERNAM len` (R140). -/
  | vernam (len : Nat)
  /-- `CSHIFT mode, ch, shift, modulus, start` (R144). -/
  | cshift (mode : CipherMode) (ch shift modulus start : Byte)
  /-- `CAESAR mode, modulus, start, len` (R145). -/
  | caesar (mode : CipherMode) (modulus start : Byte) (len : Nat)
  deriving DecidableEq, Repr

end Sys2Proof
end

