-- ==== Sys2Proof/Machine/State.lean ====
section
/-!
DEFINITION. The state of one instance of CORE (`10_state.md`), the moves the host can make on it,
and the machine right after reset. Plain data throughout.
-/

namespace Sys2Proof.Machine

/-- A byte buffer (`IBUF`, `OBUF`): (index, byte) pairs in one canonical form, indices strictly rising
and no entry equal to `Config.fillByte`, what an unlisted index reads as (log entry 3). -/
abbrev Memory := List Host.Cell

/-- The Generator state, the tuple of R20. Between commands `cursor` is a number below 256 (R23, D30). -/
structure Generator where
  /-- `mixState` (R21). -/
  mm : Vector Word 256
  /-- `resultBuffer` (R22). -/
  rsl : Vector Word 256
  /-- Index into `rsl` (R23). -/
  cursor : Fin 256
  /-- Accumulator (R24). -/
  accA : Word
  /-- Accumulator (R24). -/
  accB : Word
  /-- Accumulator, counts batches (R24). -/
  accC : Word
  deriving DecidableEq, Repr

/-- The parts of the state to which R36 gives no value after `RESET`, as whoever applies `RESET` finds
them: an input, so that nothing constrains them (log entries 2, 3). -/
structure PowerOn where
  gen : Generator
  ibuf : List Host.Cell
  obuf : List Host.Cell
  deriving DecidableEq, Repr

/-- The four host registers (R50, R31 to R34); `registerAt` gives their numbers (R58). -/
inductive HostRegister where
  /-- 64 bits, write only (R31). -/
  | cmd
  /-- 32 bits, read only (R32). -/
  | status
  /-- 32 bits, read only (R33). -/
  | resp
  /-- 32 bits, read only (R34). -/
  | olen
  deriving DecidableEq, Repr

/-- What a host read names (R35, R58): a register by its number, or a byte of a buffer by its index. The
Generator is not readable (D24): the host has no such move. -/
inductive HostPort where
  | reg (n : Nat)
  | ibuf (k : Nat)
  | obuf (k : Nat)
  deriving DecidableEq, Repr

/-- One move of the host or the platform (R31, R35, R64, R210). -/
inductive HostMove where
  /-- Write the 64-bit word `w` to register number `n` (R58). Number 0 is `CMD`: execute `w` as one command
  (R31); the host has no other register to write (R35, log entry 11). -/
  | writeReg (n : Nat) (w : CmdWord)
  /-- Write the byte `v` to `IBUF[k]` (R29, R64). -/
  | writeIbuf (k : Nat) (v : Byte)
  /-- Read a register or a byte (R35). -/
  | read (p : HostPort)
  /-- Apply the event `RESET` (R210). -/
  | reset (p : PowerOn)
  deriving DecidableEq, Repr

/-- The fault a command reports (R180). The machine goes on after it (R191): not a stop. -/
inductive CommandFault where
  /-- R181. -/
  | illegalCommand
  /-- R182. -/
  | notSeeded
  /-- R183. -/
  | inputTooLong
  /-- R184. -/
  | badAlphabet
  /-- R185. -/
  | outOfAlphabet
  deriving DecidableEq, Repr

/-- Why the machine stops. -/
inductive Fault where
  /-- Raised by a host move that names an element of `IBUF` or `OBUF` at or above `MAXLEN`, or a register
  number above 3, which R50 says does not exist. Safe: the model stops where the spec gives nothing (log
  entry 6). -/
  | noSuchElement
  deriving DecidableEq, Repr

/-- What the model refuses. -/
inductive Refusal where
  /-- Raised by an arm of `exec` whose instruction is not modelled; there is none. Safe. -/
  | notModelled (mnemonic : String)
  /-- Raised by a host read of `CMD` or a host write of `STATUS`, `RESP` or `OLEN`: U12 says to refuse, since
  the spec gives the host no such move (R31, R35). Safe (log entry 11). -/
  | noSuchMove
  deriving DecidableEq, Repr

/-- One instance of CORE. -/
structure State where
  /-- The parameter `MAXLEN` of this instance (R7); nothing writes it (log entry 1). -/
  maxLen : Nat
  /-- The Generator state (R20). -/
  gen : Generator
  /-- `IBUF` (R29). -/
  ibuf : Memory
  /-- `OBUF` (R30). -/
  obuf : Memory
  /-- `STATUS`, register 1 (R32). -/
  status : Word
  /-- `RESP`, register 2 (R33). -/
  resp : Word
  /-- `OLEN`, register 3 (R34). -/
  olen : Word
  /-- The model's own: the host moves still to come, oldest first (log entry 4). -/
  host : List HostMove
  /-- The model's own: what the latest host read returned, none before the first (log entry 5). -/
  rdata : Option Word
  deriving DecidableEq, Repr

/-- The Generator's free contents at `State.reset` (R36: "no value"; log entry 2). -/
def Generator.powerOn : Generator where
  mm := Vector.ofFn fun i => Config.powerOnMm i.val
  rsl := Vector.ofFn fun i => Config.powerOnRsl i.val
  cursor := Config.powerOnCursor
  accA := Config.powerOnAccA
  accB := Config.powerOnAccB
  accC := Config.powerOnAccC

/-- The machine right after reset (R36, R210), with no host move to come. -/
def State.reset : State where
  maxLen := Config.maxLenDefault
  gen := Generator.powerOn
  ibuf := []
  obuf := []
  status := 0
  resp := 0
  olen := 0
  host := []
  rdata := none

end Sys2Proof.Machine
end

