-- ==== Sys2Proof/Machine/Flags.lean ====
section
/-!
DEFINITION. The fields of `STATUS` (`10_state.md` rule R32) and the fault codes (`60_exceptions.md`
rule R180). CORE has no other flags: no arithmetic sets any (R32).
-/

namespace Sys2Proof.Machine

/-- `STATUS[0]`, `SEEDED` (R32). -/
def statusSeeded (st : Word) : Bool := st.getLsbD 0

/-- `STATUS[1]`, `FLT` (R32). -/
def statusFlt (st : Word) : Bool := st.getLsbD 1

/-- `STATUS[15:8]`, `ERR` (R32). -/
def statusErr (st : Word) : Byte := st.extractLsb' 8 8

/-- `STATUS.SEEDED <- 1`. -/
def statusSetSeeded (st : Word) : Word := st ||| 0x00000001

/-- `STATUS.FLT <- 1`. -/
def statusSetFlt (st : Word) : Word := st ||| 0x00000002

/-- `STATUS.ERR <- code`. -/
def statusSetErr (st : Word) (code : Byte) : Word :=
  (st &&& 0xFFFF00FF) ||| (code.setWidth 32 <<< 8)

/-- The reserved bits 7:2 and 31:16 of `STATUS`, which read as 0 (R32). -/
def statusReserved (st : Word) : Word := st &&& 0xFFFF00FC

/-- The code of a command's fault (R180); code 0 is success. -/
def CommandFault.code : CommandFault → Byte
  | .illegalCommand => 1
  | .notSeeded => 2
  | .inputTooLong => 3
  | .badAlphabet => 4
  | .outOfAlphabet => 5

/-- `STATUS.SEEDED = 1`. -/
def State.seeded (s : State) : Bool := statusSeeded s.status

/-- `STATUS.FLT = 1`. -/
def State.flt (s : State) : Bool := statusFlt s.status

/-- `STATUS.ERR`. -/
def State.err (s : State) : Byte := statusErr s.status

end Sys2Proof.Machine
end

