-- ==== Sys2Proof/Machine/Ops.lean ====
section
/-!
DEFINITION. The named operations over the byte buffers and the host's registers: byte access
(`20_memory.md` R54, R55), width changes (R11), fault delivery (`60_exceptions.md` R190), the moves of
the host (`10_state.md` R35) and `RESET` (`70_reset_and_hazards.md` R210). There is no return from a
fault: it transfers control nowhere (R191).
-/

namespace Sys2Proof.Machine

/-! Byte buffers. -/

/-- `MemRead`: the byte at index `k` (R54). -/
def Memory.read (m : Memory) (k : Nat) : Byte :=
  match m with
  | [] => Config.fillByte
  | c :: rest => if c.1 = k then c.2 else Memory.read rest k

/-- The buffer with index `k` unlisted. -/
def Memory.erase (m : Memory) (k : Nat) : Memory := m.filter fun c => decide (c.1 ≠ k)

/-- List `(k, v)` before the first higher index. -/
def Memory.insert (m : Memory) (k : Nat) (v : Byte) : Memory :=
  match m with
  | [] => [(k, v)]
  | c :: rest => if c.1 < k then c :: Memory.insert rest k v else (k, v) :: c :: rest

/-- `MemWrite`: set index `k` to `v` (R55), keeping the canonical form. -/
def Memory.write (m : Memory) (k : Nat) (v : Byte) : Memory :=
  if v = Config.fillByte then m.erase k else (m.erase k).insert k v

/-- Indices strictly rise. -/
def Memory.rising (m : Memory) : Bool :=
  match m with
  | [] => true
  | c :: rest => rest.all (fun d => decide (c.1 < d.1)) && Memory.rising rest

/-- The canonical form: indices strictly rise and no entry equals what an unlisted index reads as. -/
def Memory.wf (m : Memory) : Bool :=
  m.rising && m.all fun c => decide (c.2 ≠ Config.fillByte)

/-- Every listed index exists in a buffer of `n` bytes (R50). -/
def Memory.within (m : Memory) (n : Nat) : Bool := m.all fun c => decide (c.1 < n)

/-- A buffer of `n` bytes holding the given bytes (a later pair wins; an index that does not exist is
dropped): the contents a `RESET` leaves (R36). -/
def Memory.ofCells (n : Nat) (cells : List Host.Cell) : Memory :=
  cells.foldl (fun m c => if c.1 < n then m.write c.1 c.2 else m) []

/-! Width changes (R11). -/

/-- `zext_32` of a byte. -/
def zext32 (b : Byte) : Word := b.setWidth 32

/-- `low8` of a word. -/
def low8 (w : Word) : Byte := w.setWidth 8

/-! The end of a command. -/

/-- `raise F`: the one operation by which a command faults (R190). The machine goes on from the state it
gives (R191). -/
def State.raise (s : State) (F : CommandFault) : State :=
  { s with status := statusSetFlt (statusSetErr s.status F.code) }

/-- `STATUS.ERR <- 0`: what every successful command writes (R190). -/
def State.succeed (s : State) : State :=
  { s with status := statusSetErr s.status 0 }

/-! Moves of the host other than commands. -/

/-- The register a register number names (R58); numbers above 3 name none (R50). -/
def registerAt (n : Nat) : Option HostRegister :=
  match n with
  | 0 => some .cmd
  | 1 => some .status
  | 2 => some .resp
  | 3 => some .olen
  | _ => none

/-- The host writes `IBUF[k]` (R29, R35); an index that does not exist faults (R50, log entry 6). -/
def State.hostWriteIbuf (s : State) (k : Nat) (v : Byte) : Host.Outcome State Fault Refusal :=
  if k < s.maxLen then .next { s with ibuf := s.ibuf.write k v } else .fault .noSuchElement

/-- The value the host reads in register number `n` (R32 to R34), a whole 32-bit value (R64). `CMD` is not
read (R31, U12, log entry 11). -/
def State.registerValue (s : State) (n : Nat) : Host.Outcome Word Fault Refusal :=
  match registerAt n with
  | some .cmd => .refused .noSuchMove
  | some .status => .next s.status
  | some .resp => .next s.resp
  | some .olen => .next s.olen
  | none => .fault .noSuchElement

/-- The value at what the host reads (R35), a stop where there is none (R50). A byte is read by byte (R64)
and is the low byte of the value returned. -/
def State.portValue (s : State) (p : HostPort) : Host.Outcome Word Fault Refusal :=
  match p with
  | .reg n => s.registerValue n
  | .ibuf k => if k < s.maxLen then .next (zext32 (s.ibuf.read k)) else .fault .noSuchElement
  | .obuf k => if k < s.maxLen then .next (zext32 (s.obuf.read k)) else .fault .noSuchElement

/-- The host reads (R35). No read has a side effect on CORE (R58): only the model's `rdata` changes. -/
def State.hostRead (s : State) (p : HostPort) : Host.Outcome State Fault Refusal :=
  match s.portValue p with
  | .next v => .next { s with rdata := some v }
  | .fault r => .fault r
  | .refused r => .refused r

/-- `RESET` (R210): every part of the state at the value of R36, the parts without one as `p` has them.
The parameter `MAXLEN` is no state, and the host's later moves and last read are the host's. -/
def State.afterReset (s : State) (p : PowerOn) : State where
  maxLen := s.maxLen
  gen := p.gen
  ibuf := Memory.ofCells s.maxLen p.ibuf
  obuf := Memory.ofCells s.maxLen p.obuf
  status := 0
  resp := 0
  olen := 0
  host := s.host
  rdata := s.rdata

end Sys2Proof.Machine
end

