-- ==== Sys2Proof/Machine/Operands.lean ====
section
/-!
DEFINITION. The operands that are not fields of the command word: seed bytes and message bytes of
`IBUF` (`30_encoding.md` R82), and the Caesar alphabet with its checks (`41_cipher.md` R142).
-/

namespace Sys2Proof.Machine

/-- Staged seed word `k`: the seed byte zero extended when `k < LEN`, 0 otherwise (R52, R115). -/
def seedWord (ibuf : Memory) (len k : Nat) : Word :=
  if k < len then zext32 (ibuf.read k) else 0

/-- The staging array of the seed: `SEED_MAX` = 256 words (R6, R115); bytes at and above index 256 are ignored
(R119). -/
def stagedSeed (ibuf : Memory) (len : Nat) : Vector Word 256 :=
  Vector.ofFn fun k : Fin 256 => seedWord ibuf len k.val

/-- The alphabet `[START, START+MODULUS)` is legal; the sum is not wrapped (R142). -/
def legalAlphabet (modulus start : Byte) : Bool :=
  decide (1 ≤ modulus.toNat) && decide (start.toNat + modulus.toNat ≤ 256)

/-- `START <= ch < START + MODULUS`, the sum not wrapped (R142). -/
def inAlphabet (modulus start ch : Byte) : Bool :=
  decide (start.toNat ≤ ch.toNat) && decide (ch.toNat < start.toNat + modulus.toNat)

/-- Every message byte `IBUF[0..LEN-1]` lies in the alphabet (R145, R148). -/
def messageInAlphabet (ibuf : Memory) (modulus start : Byte) (len : Nat) : Bool :=
  (List.range len).all fun k => inAlphabet modulus start (ibuf.read k)

end Sys2Proof.Machine
end

