-- ==== Sys2Proof/Machine/Mixer.lean ====
section
/-!
DEFINITION. The ISAAC PRBS mixer (`40_generator.md`): the internal operations `MIX` and `BATCH`, the
scrambling of `SEED`, and the two draws the commands share.
-/

namespace Sys2Proof.Machine

/-! Constants of `00_scope.md` rule R6. -/

/-- `GOLDEN`. -/
def golden : Word := 0x9e3779b9

/-- `PRE_ROUNDS`. -/
def preRounds : Nat := 4

/-- `PRINT_MOD`. -/
def printMod : Nat := 95

/-- `PRINT_BASE`. -/
def printBase : Nat := 32

/-- `HALF`: the offset of the partner word. -/
def half : Nat := 128

/-- Every index into `mm` and `rsl` is reduced modulo 256 (R51). -/
def wordIndex (n : Nat) : Fin 256 := Fin.ofNat 256 n

/-! `MIX`. -/

/-- The eight working variables of `SEED` (R25). -/
structure WorkVars where
  a : Word
  b : Word
  c : Word
  d : Word
  e : Word
  f : Word
  g : Word
  h : Word
  deriving DecidableEq, Repr

/-- `MIX` (R110, R111): the 24 assignments one after another. The wiring is the spec's general knowledge
GK1 (log entry 9). -/
def mix (v : WorkVars) : WorkVars :=
  let ⟨a, b, c, d, e, f, g, h⟩ := v
  let a := a ^^^ (b <<< 11)
  let d := d + a
  let b := b + c
  let b := b ^^^ (c >>> 2)
  let e := e + b
  let c := c + d
  let c := c ^^^ (d <<< 8)
  let f := f + c
  let d := d + e
  let d := d ^^^ (e >>> 16)
  let g := g + d
  let e := e + f
  let e := e ^^^ (f <<< 10)
  let h := h + e
  let f := f + g
  let f := f ^^^ (g >>> 4)
  let a := a + f
  let g := g + h
  let g := g ^^^ (h <<< 8)
  let b := b + g
  let h := h + a
  let h := h ^^^ (a >>> 9)
  let c := c + h
  let a := a + b
  ⟨a, b, c, d, e, f, g, h⟩

/-- `MIX` executed `n` times. -/
def mixTimes : Nat → WorkVars → WorkVars
  | 0, v => v
  | n + 1, v => mixTimes n (mix v)

/-! `BATCH`. -/

/-- The `accA` self-mix of position `i` (R112): one of four shifts, combined via XOR. -/
def selfMix (i : Nat) (accA : Word) : Word :=
  match i % 4 with
  | 0 => accA ^^^ (accA <<< 13)
  | 1 => accA ^^^ (accA >>> 6)
  | 2 => accA ^^^ (accA <<< 2)
  | _ => accA ^^^ (accA >>> 16)

/-- One position of `BATCH` (R112), with the reads and writes in the order of R113. "Fold in" is
addition by the spec's general knowledge GK3 (log entry 9). -/
def Generator.batchPosition (q : Generator) (i : Fin 256) : Generator :=
  let x := q.mm[i]
  let accA := selfMix i.val q.accA
  let accA := q.mm[wordIndex (i.val + half)] + accA
  let y := q.mm[wordIndex (x >>> 2).toNat] + accA + q.accB
  let mm := q.mm.set i.val y
  let accB := mm[wordIndex (y >>> 10).toNat] + x
  { q with mm := mm, rsl := q.rsl.set i.val accB, accA := accA, accB := accB }

/-- The head of `BATCH`: `accC <- accC + 1`, then `accB <- accB + accC` (R112). -/
def Generator.batchHead (q : Generator) : Generator :=
  { q with accC := q.accC + 1, accB := q.accB + (q.accC + 1) }

/-- `BATCH` (R112): the head, then positions 0 to 255 in order. It does not touch `cursor`. (Irreducible so that
the elaborator never runs the 256 positions; the kernel evaluates it.) -/
@[irreducible] def Generator.batch (q : Generator) : Generator :=
  (List.finRange 256).foldl Generator.batchPosition q.batchHead

/-! The scrambling of `SEED`. -/

/-- Add the 8 words of `src` at block `j` into the 8 working variables (R116). -/
def addBlock (src : Vector Word 256) (j : Nat) (v : WorkVars) : WorkVars where
  a := v.a + src[wordIndex (8 * j)]
  b := v.b + src[wordIndex (8 * j + 1)]
  c := v.c + src[wordIndex (8 * j + 2)]
  d := v.d + src[wordIndex (8 * j + 3)]
  e := v.e + src[wordIndex (8 * j + 4)]
  f := v.f + src[wordIndex (8 * j + 5)]
  g := v.g + src[wordIndex (8 * j + 6)]
  h := v.h + src[wordIndex (8 * j + 7)]

/-- Write one word at a reduced index. -/
def setWord (mm : Vector Word 256) (i : Nat) (w : Word) : Vector Word 256 :=
  mm.set (wordIndex i).val w

/-- Store the 8 working variables into `mm` at block `j` (R116). -/
def storeBlock (mm : Vector Word 256) (j : Nat) (v : WorkVars) : Vector Word 256 :=
  let mm := setWord mm (8 * j) v.a
  let mm := setWord mm (8 * j + 1) v.b
  let mm := setWord mm (8 * j + 2) v.c
  let mm := setWord mm (8 * j + 3) v.d
  let mm := setWord mm (8 * j + 4) v.e
  let mm := setWord mm (8 * j + 5) v.f
  let mm := setWord mm (8 * j + 6) v.g
  setWord mm (8 * j + 7) v.h

/-- Block `j` of the first pass (R116): the staged seed words are added only when `F = 1`. -/
def firstPassBlock (f : Bool) (rsl : Vector Word 256) (p : WorkVars × Vector Word 256) (j : Nat) :
    WorkVars × Vector Word 256 :=
  let v := mix (if f then addBlock rsl j p.1 else p.1)
  (v, storeBlock p.2 j v)

/-- Block `j` of the second pass (R116): the words added are those standing in `mm`. -/
def secondPassBlock (p : WorkVars × Vector Word 256) (j : Nat) : WorkVars × Vector Word 256 :=
  let v := mix (addBlock p.2 j p.1)
  (v, storeBlock p.2 j v)

/-- The working variables after the four unconditional rounds (R116). -/
def scrambleStart : WorkVars :=
  mixTimes preRounds ⟨golden, golden, golden, golden, golden, golden, golden, golden⟩

/-- The scrambling procedure (R116): from `mm` and the staged seed `rsl` to the scrambled `mm`. The
working variables carry on from block to block and from pass to pass. (Irreducible as `batch`.) -/
@[irreducible] def scramble (f : Bool) (mm rsl : Vector Word 256) : Vector Word 256 :=
  let p := (List.range 32).foldl (firstPassBlock f rsl) (scrambleStart, mm)
  if f then ((List.range 32).foldl secondPassBlock p).2 else p.2

/-- Staging and clearing (R115). The accumulators are cleared by the spec's general knowledge GK2 (log
entry 9). -/
def Generator.stage (q : Generator) (ibuf : Memory) (len : Nat) : Generator :=
  { q with mm := Vector.replicate 256 0, rsl := stagedSeed ibuf len, accA := 0, accB := 0, accC := 0 }

/-- The Generator part of `SEED` (R117): stage, scramble, one batch, `cursor <- 0`. -/
def Generator.seed (q : Generator) (f : Bool) (ibuf : Memory) (len : Nat) : Generator :=
  let q := q.stage ibuf len
  let q := { q with mm := scramble f q.mm q.rsl }
  { q.batch with cursor := 0 }

/-! The draws. -/

/-- The state part of `draw()` (R121): the refill comes after the read, inside the same draw. -/
def Generator.advance (q : Generator) : Generator :=
  if q.cursor = 255 then { q.batch with cursor := 0 } else { q with cursor := q.cursor + 1 }

/-- `draw()` (R121). -/
def Generator.draw (q : Generator) : Word × Generator := (q.rsl[q.cursor], q.advance)

/-- The character of a drawn word: `low8((w mod 95) + 32)`, `w` unsigned (R124). -/
def printable (w : Word) : Byte := BitVec.ofNat 8 (w.toNat % printMod + printBase)

/-- `drawc()` (R124). -/
def Generator.drawc (q : Generator) : Byte × Generator := (printable q.draw.1, q.draw.2)

end Sys2Proof.Machine
end

