-- ==== Sys2Proof/Machine/Cipher.lean ====
section
/-!
DEFINITION. The cipher commands `VERNAM`, `CSHIFT`, `CAESAR` (`41_cipher.md` R140, R144, R145), the
Caesar shift function (R143) and the loop over a message that two of them share.
-/

namespace Sys2Proof.Machine

/-- The signed shift: negated for Decipher only (R143); None shifts as Encipher (R146). -/
def signedShift (mode : CipherMode) (shift : Byte) : Int :=
  match mode with
  | .none => (shift.toNat : Int)
  | .encipher => (shift.toNat : Int)
  | .decipher => -(shift.toNat : Int)

/-- `cshift` (R143), in unbounded integers, with the truncating remainder. -/
def cshift (mode : CipherMode) (ch shift modulus start : Byte) : Byte :=
  let t : Int := ((ch.toNat : Int) - (start.toNat : Int)) + signedShift mode shift
  let n : Int := t.tmod (modulus.toNat : Int)
  let n : Int := if n < 0 then n + (modulus.toNat : Int) else n
  BitVec.ofInt 8 ((start.toNat : Int) + n)

/-- The loop of `VERNAM` and `CAESAR` (R140, R145): `n` message bytes from index `k` on, each combined by
`f` with one drawn character and written to the same index of the output. -/
def cipherLoop (f : Byte → Byte → Byte) (ibuf : Memory) : Nat → Nat → Generator → Memory → Generator × Memory
  | 0, _, q, obuf => (q, obuf)
  | n + 1, k, q, obuf =>
    cipherLoop f ibuf n (k + 1) q.drawc.2 (obuf.write k (f (ibuf.read k) q.drawc.1))

/-- A successful cipher command over `LEN` bytes: the loop, `OLEN <- LEN`, `STATUS.ERR <- 0`. -/
def State.runCipher (s : State) (f : Byte → Byte → Byte) (len : Nat) : State :=
  ({ s with
      gen := (cipherLoop f s.ibuf len 0 s.gen s.obuf).1
      obuf := (cipherLoop f s.ibuf len 0 s.gen s.obuf).2
      olen := BitVec.ofNat 32 len } : State).succeed

/-- `VERNAM len` (R140). -/
def execVernam (len : Nat) (s : State) : Host.Outcome State Fault Refusal :=
  if s.seeded = false then .next (s.raise .notSeeded)
  else if s.maxLen < len then .next (s.raise .inputTooLong)
  else .next (s.runCipher (fun m c => m ^^^ c) len)

/-- `CSHIFT mode, ch, shift, modulus, start` (R144). It draws nothing and needs no seed. -/
def execCshift (mode : CipherMode) (ch shift modulus start : Byte) (s : State) :
    Host.Outcome State Fault Refusal :=
  if legalAlphabet modulus start = false then .next (s.raise .badAlphabet)
  else if inAlphabet modulus start ch = false then .next (s.raise .outOfAlphabet)
  else .next ({ s with resp := zext32 (cshift mode ch shift modulus start) } : State).succeed

/-- `CAESAR mode, modulus, start, len` (R145): the whole message is checked before any draw (R148), and
an empty message is accepted with any alphabet (R149). -/
def execCaesar (mode : CipherMode) (modulus start : Byte) (len : Nat) (s : State) :
    Host.Outcome State Fault Refusal :=
  if s.seeded = false then .next (s.raise .notSeeded)
  else if s.maxLen < len then .next (s.raise .inputTooLong)
  else if 0 < len ∧ legalAlphabet modulus start = false then .next (s.raise .badAlphabet)
  else if 0 < len ∧ messageInAlphabet s.ibuf modulus start len = false then
    .next (s.raise .outOfAlphabet)
  else .next (s.runCipher (fun m c => cshift mode m c modulus start) len)

end Sys2Proof.Machine
end

