-- ==== Sys2Proof/Machine/Generator.lean ====
section
/-!
DEFINITION. The Generator commands `SEED`, `NEXTW`, `NEXTC` (`40_generator.md` R117, R122, R125).
-/

namespace Sys2Proof.Machine

/-- `SEED f, len` (R117). It never faults and needs no earlier seed. -/
def execSeed (f : Bool) (len : Nat) (s : State) : Host.Outcome State Fault Refusal :=
  .next ({ s with gen := s.gen.seed f s.ibuf len, status := statusSetSeeded s.status } : State).succeed

/-- `NEXTW` (R122). -/
def execNextw (s : State) : Host.Outcome State Fault Refusal :=
  if s.seeded then
    .next ({ s with gen := s.gen.draw.2, resp := s.gen.draw.1 } : State).succeed
  else .next (s.raise .notSeeded)

/-- `NEXTC` (R125). -/
def execNextc (s : State) : Host.Outcome State Fault Refusal :=
  if s.seeded then
    .next ({ s with gen := s.gen.drawc.2, resp := zext32 s.gen.drawc.1 } : State).succeed
  else .next (s.raise .notSeeded)

end Sys2Proof.Machine
end

