-- ==== Sys2Proof/Machine/Dispatch.lean ====
section
/-!
DEFINITION. One arm per command.
-/

namespace Sys2Proof.Machine

def exec (i : Instr) (s : State) : Host.Outcome State Fault Refusal :=
  match i with
  | .seed f len => Sys2Proof.Machine.execSeed f len s
  | .nextw => Sys2Proof.Machine.execNextw s
  | .nextc => Sys2Proof.Machine.execNextc s
  | .vernam len => Sys2Proof.Machine.execVernam len s
  | .cshift mode ch shift modulus start => Sys2Proof.Machine.execCshift mode ch shift modulus start s
  | .caesar mode modulus start len => Sys2Proof.Machine.execCaesar mode modulus start len s

end Sys2Proof.Machine
end

