-- ==== Sys2Proof/WellFormed.lean ====
section
/-!
DEFINITION. Which commands have an encoding (`30_encoding.md` rules R81, R82): every operand is a
contiguous unsigned field, and the one operand whose Lean type is wider than its field is `LEN`.
-/

namespace Sys2Proof

/-- `LEN` is a 16-bit unsigned field (R81). -/
def lenFits (len : Nat) : Bool := decide (len < 2 ^ 16)

/-- The command has a 64-bit word: its `LEN`, where it has one, fits the field. -/
def Instr.wellFormed : Instr → Bool
  | .seed _ len => lenFits len
  | .nextw => true
  | .nextc => true
  | .vernam len => lenFits len
  | .cshift _ _ _ _ _ => true
  | .caesar _ _ _ len => lenFits len

end Sys2Proof
end

