-- ==== Sys2Proof/Decode.lean ====
section
/-!
DEFINITION. The total decoder of a command word and its inverse (`30_encoding.md` rules R81 to R88).
A word that is no command is refused by name; all names are the one fault `IllegalCommand` of R181.
-/

namespace Sys2Proof

/-- Why a word is no command (R86). -/
inductive Illegal where
  /-- `OP` is none of the six values of R83. -/
  | unknownOpcode
  /-- A field the command does not use, or a reserved bit, is not 0 (R84). -/
  | nonzeroUnused
  /-- `MODE = 3` in `CSHIFT` or `CAESAR` (R85). -/
  | reservedMode
  deriving DecidableEq, Repr

/-- What the decoder returns (R88): exactly one command, or illegal. -/
inductive Decoded where
  | command (i : Instr)
  | illegal (e : Illegal)
  deriving DecidableEq, Repr

/-- One row of the table of R84. -/
structure OpcodeRow where
  mnemonic : String
  pattern : CmdWord
  mask : CmdWord
  deriving DecidableEq, Repr

/-- `(w AND mask) = match` (R84). -/
def OpcodeRow.selects (r : OpcodeRow) (w : CmdWord) : Bool := w &&& r.mask == r.pattern

/-! The six rows of R84. -/

def rowSeed : OpcodeRow := ⟨"SEED", 0x0100000000000000, 0xFFFFFFFFFFFB0000⟩
def rowNextw : OpcodeRow := ⟨"NEXTW", 0x0200000000000000, 0xFFFFFFFFFFFFFFFF⟩
def rowNextc : OpcodeRow := ⟨"NEXTC", 0x0300000000000000, 0xFFFFFFFFFFFFFFFF⟩
def rowVernam : OpcodeRow := ⟨"VERNAM", 0x0400000000000000, 0xFFFFFFFFFFFF0000⟩
def rowCshift : OpcodeRow := ⟨"CSHIFT", 0x0500000000000000, 0xFF00000000FCFFFF⟩
def rowCaesar : OpcodeRow := ⟨"CAESAR", 0x0600000000000000, 0xFFFFFF0000FC0000⟩

/-- The table of R84 in its order. -/
def opcodeRows : List OpcodeRow :=
  [rowSeed, rowNextw, rowNextc, rowVernam, rowCshift, rowCaesar]

/-! The fields of R81, each read as an unsigned integer (R82). -/

def fieldOp (w : CmdWord) : Byte := w.extractLsb' 56 8
def fieldCh (w : CmdWord) : Byte := w.extractLsb' 48 8
def fieldShift (w : CmdWord) : Byte := w.extractLsb' 40 8
def fieldModulus (w : CmdWord) : Byte := w.extractLsb' 32 8
def fieldStart (w : CmdWord) : Byte := w.extractLsb' 24 8
/-- `F = 1` means `useSeedContents = true` (R82). -/
def fieldF (w : CmdWord) : Bool := w.getLsbD 18
def fieldMode (w : CmdWord) : BitVec 2 := w.extractLsb' 16 2
def fieldLen (w : CmdWord) : Nat := (w.extractLsb' 0 16).toNat

/-- `MODE` values (R85): 0 None, 1 Encipher, 2 Decipher, 3 reserved. -/
def modeOfField (m : BitVec 2) : Option CipherMode :=
  if m = 0 then some .none
  else if m = 1 then some .encipher
  else if m = 2 then some .decipher
  else Option.none

/-- The decoder (R84, R88). It reads the word alone. -/
def decode (w : CmdWord) : Decoded :=
  if rowSeed.selects w then .command (.seed (fieldF w) (fieldLen w))
  else if rowNextw.selects w then .command .nextw
  else if rowNextc.selects w then .command .nextc
  else if rowVernam.selects w then .command (.vernam (fieldLen w))
  else if rowCshift.selects w then
    match modeOfField (fieldMode w) with
    | some m => .command (.cshift m (fieldCh w) (fieldShift w) (fieldModulus w) (fieldStart w))
    | Option.none => .illegal .reservedMode
  else if rowCaesar.selects w then
    match modeOfField (fieldMode w) with
    | some m => .command (.caesar m (fieldModulus w) (fieldStart w) (fieldLen w))
    | Option.none => .illegal .reservedMode
  else if 1 ≤ fieldOp w ∧ fieldOp w ≤ 6 then .illegal .nonzeroUnused
  else .illegal .unknownOpcode

/-! The encoder. -/

/-- The number of a mode (R85). -/
def modeBits : CipherMode → BitVec 2
  | .none => 0
  | .encipher => 1
  | .decipher => 2

/-- The word of R81's picture, most significant field first; bits 23:19 are 0. -/
def assemble (op ch shift modulus start : Byte) (f : Bool) (mode : BitVec 2) (len : Nat) : CmdWord :=
  op ++ ch ++ shift ++ modulus ++ start ++ (0 : BitVec 5) ++ BitVec.ofBool f ++ mode ++ BitVec.ofNat 16 len

/-- The `OP` value of a command (R83). -/
def opcodeOf : Instr → Byte
  | .seed _ _ => 1
  | .nextw => 2
  | .nextc => 3
  | .vernam _ => 4
  | .cshift _ _ _ _ _ => 5
  | .caesar _ _ _ _ => 6

/-- "place each used field at its bits and zero everywhere else" (R88). -/
def encode (i : Instr) : CmdWord :=
  match i with
  | .seed f len => assemble (opcodeOf i) 0 0 0 0 f 0 len
  | .nextw => assemble (opcodeOf i) 0 0 0 0 false 0 0
  | .nextc => assemble (opcodeOf i) 0 0 0 0 false 0 0
  | .vernam len => assemble (opcodeOf i) 0 0 0 0 false 0 len
  | .cshift mode ch shift modulus start =>
    assemble (opcodeOf i) ch shift modulus start false (modeBits mode) 0
  | .caesar mode modulus start len =>
    assemble (opcodeOf i) 0 0 modulus start false (modeBits mode) len

/-- The command word whose bits are `w`, of which the opcode table gives `nbits`; the bits above are 0. -/
def tableWord (nbits w : Nat) : CmdWord := BitVec.ofNat 64 (w % 2 ^ nbits)

/-- What the decoder reads from a row of the opcode table (the host's question). -/
def decodeTableWord (nbits w : Nat) : Option Instr :=
  match decode (tableWord nbits w) with
  | .command i => some i
  | .illegal _ => Option.none

end Sys2Proof
end

