-- ==== Sys2Proof/Machine/Fetch.lean ====
section
/-!
DEFINITION. Taking the host's next move: CORE fetches nothing (`20_memory.md` R62), a command is the
value the host writes to `CMD` (R31). What a move does other than run a decoded command is said here.
-/

namespace Sys2Proof.Machine

/-- What taking the next move comes to. -/
inductive Fetched where
  /-- A decoded command, to be executed in the state without that move. -/
  | run (i : Instr) (s : State)
  /-- The step is over. -/
  | ended (o : Host.Outcome State Fault Refusal)

/-- A word written to `CMD` (R31): the command it decodes to, or `IllegalCommand` (R86, R181). -/
def State.acceptCommand (s : State) (w : CmdWord) : Fetched :=
  match decode w with
  | .command i => .run i s
  | .illegal _ => .ended (.next (s.raise .illegalCommand))

/-- The host writes a register by its number (R58): a word to `CMD` is a command (R31), the other registers
are not written (R35, U12, log entry 11), and a number above 3 names none (R50, log entry 6). -/
def State.hostWriteReg (s : State) (n : Nat) (w : CmdWord) : Fetched :=
  match registerAt n with
  | some .cmd => s.acceptCommand w
  | some .status => .ended (.refused .noSuchMove)
  | some .resp => .ended (.refused .noSuchMove)
  | some .olen => .ended (.refused .noSuchMove)
  | none => .ended (.fault .noSuchElement)

/-- Take the oldest move of `host`. With none to come CORE is idle and holds its state (R205). -/
def fetch (s : State) : Fetched :=
  match s.host with
  | [] => .ended (.next s)
  | .writeReg n w :: rest => State.hostWriteReg { s with host := rest } n w
  | .writeIbuf k v :: rest => .ended (State.hostWriteIbuf { s with host := rest } k v)
  | .read p :: rest => .ended (State.hostRead { s with host := rest } p)
  | .reset p :: rest => .ended (.next (State.afterReset { s with host := rest } p))

end Sys2Proof.Machine
end

