-- ==== Sys2Proof/Machine/Step.lean ====
section
/-!
DEFINITION. One step: one move of the host, atomic (`20_memory.md` R57).
-/

namespace Sys2Proof.Machine

/-- One move of the host. -/
def step (s : State) : Host.Outcome State Fault Refusal :=
  match fetch s with
  | .run i t => exec i t
  | .ended o => o

/-- `s` with the write of this command word to `CMD`, register number 0 (R58), as the host's very next move
(log entry 4). -/
def State.withFetchWord (s : State) (nbits w : Nat) : State :=
  { s with host := .writeReg 0 (tableWord nbits w) :: s.host }

end Sys2Proof.Machine
end

