-- ==== Sys2Proof/Safety.lean ====
section
/-!
DEFINITION. The terms the statements use: the invariant of an instance, the causes of faults in the
words of `60_exceptions.md`, the keystream a Generator gives, and sequences of commands.
-/

namespace Sys2Proof.Machine

/-! The invariant. -/

/-- What every step keeps: the parameter is a legal `MAXLEN` (R7); both buffers are canonical and hold only
elements that exist (R50); reserved bits of `STATUS` are 0, no code above 5 is ever reported and a reported
code comes with `FLT` (R32, R180, R190); `OLEN` is a length a command accepted, so that its bits 31:16 are 0
(R34, R183); and a seeded Generator's `accB` is the last word of its batch (R26, R113). -/
abbrev State.Inv (s : State) : Prop :=
  (Config.maxLenLow ≤ s.maxLen ∧ s.maxLen ≤ Config.maxLenHigh) ∧
  (s.ibuf.wf = true ∧ s.ibuf.within s.maxLen = true) ∧
  (s.obuf.wf = true ∧ s.obuf.within s.maxLen = true) ∧
  statusReserved s.status = 0 ∧
  s.err.toNat ≤ 5 ∧
  (s.err ≠ 0 → s.flt = true) ∧
  s.olen.toNat ≤ s.maxLen ∧
  (s.seeded = true → s.gen.accB = s.gen.rsl[255])

/-! How a command ended. -/

/-- The command succeeded (R190): `ERR` is 0, and `FLT`, `SEEDED` and the reserved bits are as they were. -/
def EndedWell (s t : State) : Prop :=
  t.err = 0 ∧ t.flt = s.flt ∧ t.seeded = s.seeded ∧ statusReserved t.status = statusReserved s.status

/-- The command faulted with this code (R190): `ERR` is the code, `FLT` is 1, and nothing else changed. -/
def FaultedWith (code : Byte) (s t : State) : Prop :=
  t.err = code ∧ t.flt = true ∧ t.seeded = s.seeded ∧
  statusReserved t.status = statusReserved s.status ∧ t = { s with status := t.status }

/-! The causes of faults. -/

/-- The alphabet is not legal (R184): `MODULUS = 0` or `START + MODULUS > 256`. -/
def BadAlphabetOperands (modulus start : Byte) : Prop :=
  modulus.toNat = 0 ∨ 256 < start.toNat + modulus.toNat

/-- The character lies outside `[START, START+MODULUS)` (R185). -/
def OutsideAlphabet (modulus start ch : Byte) : Prop :=
  ch.toNat < start.toNat ∨ start.toNat + modulus.toNat ≤ ch.toNat

/-- `NotSeeded` (R182): a command that draws, before any `SEED`. -/
def CauseNotSeeded (i : Instr) (s : State) : Prop :=
  match i with
  | .seed _ _ => False
  | .nextw => s.seeded = false
  | .nextc => s.seeded = false
  | .vernam _ => s.seeded = false
  | .cshift _ _ _ _ _ => False
  | .caesar _ _ _ _ => s.seeded = false

/-- `InputTooLong` (R183): `VERNAM` or `CAESAR` with `LEN > MAXLEN`. -/
def CauseInputTooLong (i : Instr) (s : State) : Prop :=
  match i with
  | .seed _ _ => False
  | .nextw => False
  | .nextc => False
  | .vernam len => s.maxLen < len
  | .cshift _ _ _ _ _ => False
  | .caesar _ _ _ len => s.maxLen < len

/-- `BadAlphabet` (R184): `CSHIFT` always, `CAESAR` only when `LEN > 0`. -/
def CauseBadAlphabet (i : Instr) : Prop :=
  match i with
  | .seed _ _ => False
  | .nextw => False
  | .nextc => False
  | .vernam _ => False
  | .cshift _ _ _ modulus start => BadAlphabetOperands modulus start
  | .caesar _ modulus start len => 0 < len ∧ BadAlphabetOperands modulus start

/-- `OutOfAlphabet` (R185): `CH` of `CSHIFT`, or any byte of the message of `CAESAR`. -/
def CauseOutOfAlphabet (i : Instr) (s : State) : Prop :=
  match i with
  | .seed _ _ => False
  | .nextw => False
  | .nextc => False
  | .vernam _ => False
  | .cshift _ ch _ modulus start => OutsideAlphabet modulus start ch
  | .caesar _ modulus start len => ∃ k, k < len ∧ OutsideAlphabet modulus start (s.ibuf.read k)

/-- No fault of R180 has its cause: the command succeeds. -/
def NoCause (i : Instr) (s : State) : Prop :=
  ¬ CauseNotSeeded i s ∧ ¬ CauseInputTooLong i s ∧ ¬ CauseBadAlphabet i ∧ ¬ CauseOutOfAlphabet i s

/-! The keystream. -/

/-- The Generator after `n` draws. -/
def Generator.afterDraws (q : Generator) : Nat → Generator
  | 0 => q
  | n + 1 => (q.afterDraws n).draw.2

/-- The `(k+1)`-th character drawn from `q`. -/
def Generator.keyChar (q : Generator) (k : Nat) : Byte := (q.afterDraws k).drawc.1

/-- How many draws a successful command consumes (R168). `SEED` restarts the count. -/
def drawsUsed : Instr → Nat
  | .seed _ _ => 0
  | .nextw => 1
  | .nextc => 1
  | .vernam len => len
  | .cshift _ _ _ _ _ => 0
  | .caesar _ _ _ len => len

/-- How many bytes of `IBUF` a command reads, from index 0 on (R54). -/
def bytesRead : Instr → Nat
  | .seed _ len => min len 256
  | .nextw => 0
  | .nextc => 0
  | .vernam len => len
  | .cshift _ _ _ _ _ => 0
  | .caesar _ _ _ len => len

/-! Sequences of commands. -/

/-- Commands one after another, each with the contents the host gives `IBUF` before it (R61, R90). -/
def execScript : List (Memory × Instr) → State → Host.Outcome State Fault Refusal
  | [], s => .next s
  | (m, i) :: rest, s =>
    match exec i { s with ibuf := m } with
    | .next t => execScript rest t
    | .fault r => .fault r
    | .refused r => .refused r

end Sys2Proof.Machine
end

