-- ==== Sys2Proof/Certificates/Slice0/Obligations.lean ====
section
/-!
DEFINITION. The statements about CORE for the provers, each from the rules of `spec/` it names.
-/

open Sys2Proof Sys2Proof.Machine

/-! Encoding (`30_encoding.md`). -/

/-- R88: decoding the word of a well-formed command gives that command back, whatever its operands. -/
def Obligations.DecodeOfEncodeIsIdentity : Prop :=
  ∀ i : Instr, i.wellFormed = true → decode (encode i) = .command i

/-- R88, R86: a word that decodes to a command is that command's one word, and the command is well formed. -/
def Obligations.EncodeOfDecodeIsIdentity : Prop :=
  ∀ (w : CmdWord) (i : Instr), decode w = .command i → encode i = w ∧ i.wellFormed = true

/-- R84, R82, R85: a word a row's mask and match select is that row's command, with the operands read from
the bits R81 gives them; `MODE = 3` is illegal. -/
def Obligations.TableRowSelectsItsCommand : Prop :=
  ∀ w : CmdWord,
    (w &&& 0xFFFFFFFFFFFB0000 = 0x0100000000000000 →
      decode w = .command (.seed (w.getLsbD 18) (w.extractLsb' 0 16).toNat)) ∧
    (w &&& 0xFFFFFFFFFFFFFFFF = 0x0200000000000000 → decode w = .command .nextw) ∧
    (w &&& 0xFFFFFFFFFFFFFFFF = 0x0300000000000000 → decode w = .command .nextc) ∧
    (w &&& 0xFFFFFFFFFFFF0000 = 0x0400000000000000 →
      decode w = .command (.vernam (w.extractLsb' 0 16).toNat)) ∧
    (w &&& 0xFF00000000FCFFFF = 0x0500000000000000 →
      (w.extractLsb' 16 2 = 0 → decode w = .command (.cshift .none
        (w.extractLsb' 48 8) (w.extractLsb' 40 8) (w.extractLsb' 32 8) (w.extractLsb' 24 8))) ∧
      (w.extractLsb' 16 2 = 1 → decode w = .command (.cshift .encipher
        (w.extractLsb' 48 8) (w.extractLsb' 40 8) (w.extractLsb' 32 8) (w.extractLsb' 24 8))) ∧
      (w.extractLsb' 16 2 = 2 → decode w = .command (.cshift .decipher
        (w.extractLsb' 48 8) (w.extractLsb' 40 8) (w.extractLsb' 32 8) (w.extractLsb' 24 8))) ∧
      (w.extractLsb' 16 2 = 3 → decode w = .illegal .reservedMode)) ∧
    (w &&& 0xFFFFFF0000FC0000 = 0x0600000000000000 →
      (w.extractLsb' 16 2 = 0 → decode w = .command (.caesar .none
        (w.extractLsb' 32 8) (w.extractLsb' 24 8) (w.extractLsb' 0 16).toNat)) ∧
      (w.extractLsb' 16 2 = 1 → decode w = .command (.caesar .encipher
        (w.extractLsb' 32 8) (w.extractLsb' 24 8) (w.extractLsb' 0 16).toNat)) ∧
      (w.extractLsb' 16 2 = 2 → decode w = .command (.caesar .decipher
        (w.extractLsb' 32 8) (w.extractLsb' 24 8) (w.extractLsb' 0 16).toNat)) ∧
      (w.extractLsb' 16 2 = 3 → decode w = .illegal .reservedMode))

/-- R86, R181: every word that no row of R84 selects is illegal, the all-zero and the all-ones word are, and executing
an illegal word, whatever the state, raises `IllegalCommand` (code 1) and changes nothing but `STATUS`. -/
def Obligations.UnselectedWordIsIllegal : Prop :=
  (∀ w : CmdWord,
    w &&& 0xFFFFFFFFFFFB0000 ≠ 0x0100000000000000 → w ≠ 0x0200000000000000 → w ≠ 0x0300000000000000 →
    w &&& 0xFFFFFFFFFFFF0000 ≠ 0x0400000000000000 →
    (w &&& 0xFF00000000FCFFFF ≠ 0x0500000000000000 ∨ w.extractLsb' 16 2 = 3) →
    (w &&& 0xFFFFFF0000FC0000 ≠ 0x0600000000000000 ∨ w.extractLsb' 16 2 = 3) →
    ∃ e, decode w = .illegal e) ∧
  (∃ e, decode 0x0000000000000000 = .illegal e) ∧
  (∃ e, decode 0xFFFFFFFFFFFFFFFF = .illegal e) ∧
  (∀ (w : CmdWord) (e : Illegal) (s : State), decode w = .illegal e →
    ∃ t, s.acceptCommand w = .ended (.next t) ∧ FaultedWith 1 s t)

/-- R91 (the spec's own worked encodings): the words and the commands they stand for, one or more of each
family. -/
def Obligations.WorkedEncodingsDecode : Prop :=
  decode 0x0100000000040015 = .command (.seed true 21) ∧
  decode 0x0100000000000000 = .command (.seed false 0) ∧
  decode 0x0200000000000000 = .command .nextw ∧
  decode 0x0300000000000000 = .command .nextc ∧
  decode 0x0400000000000013 = .command (.vernam 19) ∧
  decode 0x0561285F20010000 = .command (.cshift .encipher 97 40 95 32) ∧
  decode 0x0600005F20010013 = .command (.caesar .encipher 95 32 19) ∧
  decode 0x0600005F20020013 = .command (.caesar .decipher 95 32 19)

/-! The step and the host (`10_state.md` section 3, `70_reset_and_hazards.md` section 1). -/

/-- R31, R57, R58: when the host's next move writes to register number 0, `CMD`, a word that decodes to a command, the step is that command
executed in the state from which the move has been taken; when it writes an illegal word, the step faults with
`IllegalCommand` from that state. (The list of moves is the model's: log entry 4.) -/
def Obligations.StepRunsDecodedCommand : Prop :=
  ∀ (s : State) (w : CmdWord) (rest : List HostMove), s.host = .writeReg 0 w :: rest →
    (∀ i, decode w = .command i → step s = exec i { s with host := rest }) ∧
    (∀ e, decode w = .illegal e → ∃ t, step s = .next t ∧ FaultedWith 1 { s with host := rest } t)

/-- R29, R35, R58, R64: a host write of `IBUF[k]` sets that byte and nothing else; a host read of register number 1
(`STATUS`), 2 (`RESP`) or 3 (`OLEN`) or of a byte returns the value and has no side effect on CORE; reading number 0
(`CMD`) and writing numbers 1 to 3 is refused (U12, log entry 11); an index or a number that does not exist stops the
step (log entry 6); with no move to come CORE holds its state (R205, log entry 4). `rdata` is the model's own (log
entry 5). -/
def Obligations.HostAccessesTouchOneByteOrNothing : Prop :=
  (∀ (s : State) (k : Nat) (v : Byte) (rest : List HostMove), s.host = .writeIbuf k v :: rest →
    (k < s.maxLen → ∃ t, step s = .next t ∧ t = { s with host := rest, ibuf := t.ibuf } ∧
      t.ibuf.read k = v ∧ ∀ j, j ≠ k → t.ibuf.read j = s.ibuf.read j) ∧
    (s.maxLen ≤ k → step s = .fault .noSuchElement)) ∧
  (∀ (s : State) (rest : List HostMove),
    (s.host = .read (.reg 1) :: rest → step s = .next { s with host := rest, rdata := some s.status }) ∧
    (s.host = .read (.reg 2) :: rest → step s = .next { s with host := rest, rdata := some s.resp }) ∧
    (s.host = .read (.reg 3) :: rest → step s = .next { s with host := rest, rdata := some s.olen }) ∧
    (s.host = .read (.reg 0) :: rest → step s = .refused .noSuchMove) ∧
    (∀ n, 4 ≤ n → s.host = .read (.reg n) :: rest → step s = .fault .noSuchElement) ∧
    (∀ n w, 0 < n → n < 4 → s.host = .writeReg n w :: rest → step s = .refused .noSuchMove) ∧
    (∀ n w, 4 ≤ n → s.host = .writeReg n w :: rest → step s = .fault .noSuchElement) ∧
    (∀ k, s.host = .read (.ibuf k) :: rest →
      (k < s.maxLen → step s = .next { s with host := rest, rdata := some ((s.ibuf.read k).setWidth 32) }) ∧
      (s.maxLen ≤ k → step s = .fault .noSuchElement)) ∧
    (∀ k, s.host = .read (.obuf k) :: rest →
      (k < s.maxLen → step s = .next { s with host := rest, rdata := some ((s.obuf.read k).setWidth 32) }) ∧
      (s.maxLen ≤ k → step s = .fault .noSuchElement))) ∧
  (∀ s : State, s.host = [] → step s = .next s)

/-- R210, R211, R36: after `RESET`, `STATUS`, `RESP` and `OLEN` are 0 and the parts without a value, the Generator and
both buffers, are as the platform finds them (an input of the move: log entries 2, 3): a byte of a buffer reads as the
move's last pair for its index, whatever it read before. `MAXLEN` stays (log entry 1), and so do the host's later moves
(log entry 4) and its last read (log entry 5). Every command that draws then faults `NotSeeded`. -/
def Obligations.ResetEventUnseeds : Prop :=
  ∀ (s : State) (p : PowerOn) (rest : List HostMove), s.host = .reset p :: rest →
    ∃ t, step s = .next t ∧ t.status = 0 ∧ t.resp = 0 ∧ t.olen = 0 ∧ t.gen = p.gen ∧
      t.ibuf = Memory.ofCells s.maxLen p.ibuf ∧ t.obuf = Memory.ofCells s.maxLen p.obuf ∧
      (∀ k v before after, k < s.maxLen → (∀ c ∈ after, c.1 ≠ k) →
        (p.ibuf = before ++ (k, v) :: after → t.ibuf.read k = v) ∧
        (p.obuf = before ++ (k, v) :: after → t.obuf.read k = v)) ∧
      t.maxLen = s.maxLen ∧ t.host = rest ∧ t.rdata = s.rdata ∧ t.seeded = false ∧
      ∀ i, CauseNotSeeded i t → ∃ u, exec i t = .next u ∧ FaultedWith 2 t u

/-- R36: the values the spec gives for reset: `STATUS`, `RESP` and `OLEN` are 0, so that CORE is not seeded and
no fault is recorded. -/
def Obligations.ResetRegistersAreZero : Prop :=
  State.reset.status = 0 ∧ State.reset.resp = 0 ∧ State.reset.olen = 0 ∧
  State.reset.seeded = false ∧ State.reset.flt = false ∧ State.reset.err = 0

/-! Invariants. -/

/-- The invariant `State.Inv` holds at reset (the buffers' canonical form rests on log entry 3, `MAXLEN` on log
entry 1). -/
def Obligations.InvariantHoldsAtReset : Prop := State.reset.Inv

/-- R26, R32, R34, R50, R113, R180, R190: every step keeps `State.Inv`, from every state that has it. -/
def Obligations.EveryStepKeepsTheInvariant : Prop :=
  ∀ s t : State, s.Inv → step s = .next t → t.Inv

/-- R32: `SEEDED` and `FLT`, once 1, are cleared only by `RESET`; `SEEDED` is set by a `SEED` only, `FLT` by a
command's fault only; `ERR` is written by every command and by nothing else; and no step writes a reserved bit. -/
def Obligations.StatusFieldsHaveTheirWriters : Prop :=
  ∀ s t : State, step s = .next t → (∀ p rest, s.host ≠ .reset p :: rest) →
    (s.seeded = true → t.seeded = true) ∧
    (s.flt = true → t.flt = true) ∧
    statusReserved t.status = statusReserved s.status ∧
    ((∀ w rest, s.host ≠ .writeReg 0 w :: rest) → t.status = s.status) ∧
    (t.seeded = true → s.seeded = true ∨
      ∃ w rest f len, s.host = .writeReg 0 w :: rest ∧ decode w = .command (.seed f len)) ∧
    (∀ w rest f len, s.host = .writeReg 0 w :: rest → decode w = .command (.seed f len) → t.seeded = true) ∧
    (∀ w rest, s.host = .writeReg 0 w :: rest → (t.flt = true ↔ s.flt = true ∨ t.err ≠ 0))

/-! Faults (`60_exceptions.md`). -/

/-- R189, R190: a command always ends in a next state; if it faults it writes `ERR` and `FLT` and nothing else, and
if it succeeds it writes `ERR <- 0` and leaves `FLT`. -/
def Obligations.FaultWritesStatusOnly : Prop :=
  ∀ (i : Instr) (s : State), ∃ t, exec i s = .next t ∧
    (t.err ≠ 0 → FaultedWith t.err s t) ∧ (t.err = 0 → t.flt = s.flt)

/-- R187, with the causes of R181 to R185 and the codes of R180: the fault reported is the first of `IllegalCommand`,
`NotSeeded`, `InputTooLong`, `BadAlphabet`, `OutOfAlphabet` whose cause holds, and with no cause the command succeeds. -/
def Obligations.FirstCauseIsReported : Prop :=
  (∀ (w : CmdWord) (e : Illegal) (s : State), decode w = .illegal e →
    ∃ t, s.acceptCommand w = .ended (.next t) ∧ FaultedWith 1 s t) ∧
  (∀ (i : Instr) (s : State), ∃ t, exec i s = .next t ∧
    (CauseNotSeeded i s → FaultedWith 2 s t) ∧
    (¬ CauseNotSeeded i s → CauseInputTooLong i s → FaultedWith 3 s t) ∧
    (¬ CauseNotSeeded i s → ¬ CauseInputTooLong i s → CauseBadAlphabet i → FaultedWith 4 s t) ∧
    (¬ CauseNotSeeded i s → ¬ CauseInputTooLong i s → ¬ CauseBadAlphabet i → CauseOutOfAlphabet i s →
      FaultedWith 5 s t) ∧
    (NoCause i s → t.err = 0 ∧ t.flt = s.flt))

/-- R182: `NEXTW`, `NEXTC`, `VERNAM` and `CAESAR`, the last two even with `LEN = 0`, fault with code 2 while
`SEEDED` is 0; `CSHIFT` and `SEED` never do. -/
def Obligations.DrawBeforeSeedFaults : Prop :=
  ∀ s : State,
    (s.seeded = false →
      (∃ t, exec .nextw s = .next t ∧ FaultedWith 2 s t) ∧
      (∃ t, exec .nextc s = .next t ∧ FaultedWith 2 s t) ∧
      (∀ len, ∃ t, exec (.vernam len) s = .next t ∧ FaultedWith 2 s t) ∧
      (∀ mode modulus start len, ∃ t, exec (.caesar mode modulus start len) s = .next t ∧
        FaultedWith 2 s t)) ∧
    (∀ mode ch shift modulus start, ∃ t, exec (.cshift mode ch shift modulus start) s = .next t ∧
      t.err ≠ 2) ∧
    (∀ f len, ∃ t, exec (.seed f len) s = .next t ∧ t.err ≠ 2)

/-- R183: a seeded `VERNAM` or `CAESAR` with `LEN > MAXLEN` faults with code 3 and writes no byte; `LEN = MAXLEN`
never gives that fault, and `SEED` never does. -/
def Obligations.OverlongMessageFaults : Prop :=
  ∀ s : State, s.seeded = true →
    (∀ len, s.maxLen < len → ∃ t, exec (.vernam len) s = .next t ∧ FaultedWith 3 s t) ∧
    (∀ mode modulus start len, s.maxLen < len →
      ∃ t, exec (.caesar mode modulus start len) s = .next t ∧ FaultedWith 3 s t) ∧
    (∃ t, exec (.vernam s.maxLen) s = .next t ∧ t.err = 0) ∧
    (∀ mode modulus start, ∃ t, exec (.caesar mode modulus start s.maxLen) s = .next t ∧ t.err ≠ 3) ∧
    (∀ f len, ∃ t, exec (.seed f len) s = .next t ∧ t.err ≠ 3)

/-! What each command computes and what it leaves. -/

/-- R117, R115, R116 and R112 (whose wiring, clearing and operator are the spec's general knowledge: log entry 9):
`SEED` succeeds from every state; the Generator is the batch of the scrambled staged seed with `cursor` 0; `SEEDED`
is 1 and `ERR` 0; everything else is unchanged. -/
def Obligations.SeedResult : Prop :=
  ∀ (f : Bool) (len : Nat) (s : State), ∃ (t : State) (staged : Vector Word 256),
    exec (.seed f len) s = .next t ∧
    (∀ k : Fin 256, staged[k] = if k.val < len then (s.ibuf.read k.val).setWidth 32 else 0) ∧
    t.gen = { Generator.batch { mm := scramble f (Vector.replicate 256 0) staged, rsl := staged,
                                cursor := s.gen.cursor, accA := 0, accB := 0, accC := 0 } with cursor := 0 } ∧
    t.seeded = true ∧ t.err = 0 ∧ t.flt = s.flt ∧
    statusReserved t.status = statusReserved s.status ∧
    t = { s with gen := t.gen, status := t.status } ∧
    (∀ k, t.ibuf.read k = s.ibuf.read k ∧ t.obuf.read k = s.obuf.read k)

/-- R117, R113: after `SEED`, `cursor` is 0, `accC` is 1 and `accB` is the last word of the batch. -/
def Obligations.SeedLeavesFirstBatch : Prop :=
  ∀ (f : Bool) (len : Nat) (s : State), ∃ t, exec (.seed f len) s = .next t ∧
    t.gen.cursor = 0 ∧ t.gen.accC = 1 ∧ t.gen.accB = t.gen.rsl[255]

/-- R121, R122: a seeded `NEXTW` puts `rsl[cursor]` in `RESP`; at `cursor = 255` it then runs `BATCH` and sets
`cursor` to 0, else it adds 1 to `cursor` and leaves the rest of the Generator; `ERR` is 0 and everything else is
unchanged. An unseeded one faults `NotSeeded`. -/
def Obligations.NextwResult : Prop :=
  (∀ s : State, s.seeded = true → ∃ t, exec .nextw s = .next t ∧
    t.resp = s.gen.rsl[s.gen.cursor] ∧
    (s.gen.cursor.val = 255 → t.gen = { s.gen.batch with cursor := 0 }) ∧
    (s.gen.cursor.val ≠ 255 →
      t.gen = { s.gen with cursor := t.gen.cursor } ∧ t.gen.cursor.val = s.gen.cursor.val + 1) ∧
    EndedWell s t ∧ t = { s with gen := t.gen, resp := t.resp, status := t.status } ∧
    (∀ k, t.ibuf.read k = s.ibuf.read k ∧ t.obuf.read k = s.obuf.read k)) ∧
  (∀ s : State, s.seeded = false → ∃ t, exec .nextw s = .next t ∧ FaultedWith 2 s t)

/-- R124, R125, R162: a seeded `NEXTC` puts the character of the word `NEXTW` would have drawn in `RESP`, zero
extended; that character is in 32..126, as every character of the keystream is; the Generator changes as by that one
draw and everything else is unchanged. An unseeded one faults `NotSeeded`. -/
def Obligations.NextcResult : Prop :=
  (∀ s : State, s.seeded = true → ∃ t u, exec .nextc s = .next t ∧ exec .nextw s = .next u ∧
    t.resp.toNat = (s.gen.rsl[s.gen.cursor]).toNat % 95 + 32 ∧
    32 ≤ t.resp.toNat ∧ t.resp.toNat ≤ 126 ∧
    (∀ k, 32 ≤ (s.gen.keyChar k).toNat ∧ (s.gen.keyChar k).toNat ≤ 126) ∧
    t.gen = u.gen ∧ EndedWell s t ∧ t = { s with gen := t.gen, resp := t.resp, status := t.status } ∧
    (∀ k, t.ibuf.read k = s.ibuf.read k ∧ t.obuf.read k = s.obuf.read k)) ∧
  (∀ s : State, s.seeded = false → ∃ t, exec .nextc s = .next t ∧ FaultedWith 2 s t)

/-- R140: a seeded `VERNAM` of at most `MAXLEN` bytes writes `IBUF[k]` XOR the `(k+1)`-th character drawn to
`OBUF[k]` for every `k < LEN`, no other byte of `OBUF`, and `LEN` to `OLEN`; it consumes exactly `LEN` draws, `ERR` is
0, and everything else is unchanged. Unseeded it faults `NotSeeded`, and else longer than `MAXLEN` `InputTooLong`. -/
def Obligations.VernamResult : Prop :=
  (∀ (len : Nat) (s : State), s.seeded = true → len ≤ s.maxLen → ∃ t, exec (.vernam len) s = .next t ∧
    (∀ k, k < len → t.obuf.read k = s.ibuf.read k ^^^ s.gen.keyChar k) ∧
    (∀ k, len ≤ k → t.obuf.read k = s.obuf.read k) ∧
    t.olen = BitVec.ofNat 32 len ∧ t.gen = s.gen.afterDraws len ∧ EndedWell s t ∧
    t = { s with gen := t.gen, obuf := t.obuf, olen := t.olen, status := t.status } ∧
    (∀ k, t.ibuf.read k = s.ibuf.read k)) ∧
  (∀ (len : Nat) (s : State), s.seeded = false → ∃ t, exec (.vernam len) s = .next t ∧ FaultedWith 2 s t) ∧
  (∀ (len : Nat) (s : State), s.seeded = true → s.maxLen < len →
    ∃ t, exec (.vernam len) s = .next t ∧ FaultedWith 3 s t)

/-- R141 (2): bit 7 of each output byte of `VERNAM` equals bit 7 of the input byte (the spec's inference from
R124). -/
def Obligations.VernamKeepsBitSeven : Prop :=
  ∀ (len : Nat) (s : State), s.seeded = true → len ≤ s.maxLen → ∃ t, exec (.vernam len) s = .next t ∧
    ∀ k, k < len → (t.obuf.read k).getLsbD 7 = (s.ibuf.read k).getLsbD 7

/-- R144, R143: `CSHIFT` with a legal alphabet and a character inside it puts the shifted character in `RESP`, zero
extended, where `t` is `(ch - start) + shift`, or `- shift` for Decipher, `n` its truncating remainder by `modulus`,
`modulus` added if negative, and the result `start + n`; `ERR` is 0, nothing is drawn, no seed is needed, and
everything else is unchanged. An illegal alphabet faults `BadAlphabet`, and else a character outside it
`OutOfAlphabet`. -/
def Obligations.CshiftResult : Prop :=
  (∀ (mode : CipherMode) (ch shift modulus start : Byte) (s : State),
    ¬ BadAlphabetOperands modulus start → ¬ OutsideAlphabet modulus start ch →
    ∃ (t : State) (d n : Int), exec (.cshift mode ch shift modulus start) s = .next t ∧
      (mode = .decipher → d = (ch.toNat : Int) - start.toNat - shift.toNat) ∧
      (mode ≠ .decipher → d = (ch.toNat : Int) - start.toNat + shift.toNat) ∧
      (0 ≤ d.tmod modulus.toNat → n = d.tmod modulus.toNat) ∧
      (d.tmod modulus.toNat < 0 → n = d.tmod modulus.toNat + modulus.toNat) ∧
      (t.resp.toNat : Int) = start.toNat + n ∧
      EndedWell s t ∧ t = { s with resp := t.resp, status := t.status } ∧
      (∀ k, t.ibuf.read k = s.ibuf.read k ∧ t.obuf.read k = s.obuf.read k)) ∧
  (∀ (mode : CipherMode) (ch shift modulus start : Byte) (s : State), BadAlphabetOperands modulus start →
    ∃ t, exec (.cshift mode ch shift modulus start) s = .next t ∧ FaultedWith 4 s t) ∧
  (∀ (mode : CipherMode) (ch shift modulus start : Byte) (s : State), ¬ BadAlphabetOperands modulus start →
    OutsideAlphabet modulus start ch →
    ∃ t, exec (.cshift mode ch shift modulus start) s = .next t ∧ FaultedWith 5 s t)

/-- R143 (the spec's inference that the two steps are the floored remainder): for a legal alphabet and a character
inside it, `cshift` is `start` plus the remainder in `[0, modulus)` of the shifted distance, and it lies in the
alphabet. -/
def Obligations.CshiftIsFlooredRemainder : Prop :=
  ∀ (mode : CipherMode) (ch shift modulus start : Byte),
    ¬ BadAlphabetOperands modulus start → ¬ OutsideAlphabet modulus start ch →
    ((cshift mode ch shift modulus start).toNat : Int) =
      start.toNat + ((ch.toNat : Int) - start.toNat + signedShift mode shift) % modulus.toNat ∧
    ¬ OutsideAlphabet modulus start (cshift mode ch shift modulus start)

/-- R147 (the spec's inference from R143): Decipher undoes Encipher and Encipher undoes Decipher, for every legal
alphabet, character inside it and shift. -/
def Obligations.CshiftModesAreInverse : Prop :=
  ∀ (ch shift modulus start : Byte),
    ¬ BadAlphabetOperands modulus start → ¬ OutsideAlphabet modulus start ch →
    cshift .decipher (cshift .encipher ch shift modulus start) shift modulus start = ch ∧
    cshift .encipher (cshift .decipher ch shift modulus start) shift modulus start = ch

/-- R145, R148: a seeded `CAESAR` of at most `MAXLEN` bytes, every one of them inside a legal alphabet (an empty
message with any alphabet), writes to `OBUF[k]` the byte `IBUF[k]` shifted by the `(k+1)`-th character drawn, for
every `k < LEN` and no other byte, and `LEN` to `OLEN`; it consumes exactly `LEN` draws, `ERR` is 0, and everything
else is unchanged. Otherwise it faults, with nothing but `STATUS` changed: unseeded, else too long, else (a message that
is not empty) with an illegal alphabet, else with any byte outside the alphabet. -/
def Obligations.CaesarResult : Prop :=
  (∀ (mode : CipherMode) (modulus start : Byte) (len : Nat) (s : State),
    s.seeded = true → len ≤ s.maxLen → (0 < len → ¬ BadAlphabetOperands modulus start) →
    (∀ k, k < len → ¬ OutsideAlphabet modulus start (s.ibuf.read k)) →
    ∃ t, exec (.caesar mode modulus start len) s = .next t ∧
      (∀ k, k < len → t.obuf.read k = cshift mode (s.ibuf.read k) (s.gen.keyChar k) modulus start) ∧
      (∀ k, len ≤ k → t.obuf.read k = s.obuf.read k) ∧
      t.olen = BitVec.ofNat 32 len ∧ t.gen = s.gen.afterDraws len ∧ EndedWell s t ∧
      t = { s with gen := t.gen, obuf := t.obuf, olen := t.olen, status := t.status } ∧
      (∀ k, t.ibuf.read k = s.ibuf.read k)) ∧
  (∀ (mode : CipherMode) (modulus start : Byte) (len : Nat) (s : State),
    (s.seeded = false → ∃ t, exec (.caesar mode modulus start len) s = .next t ∧ FaultedWith 2 s t) ∧
    (s.seeded = true → s.maxLen < len →
      ∃ t, exec (.caesar mode modulus start len) s = .next t ∧ FaultedWith 3 s t) ∧
    (s.seeded = true → len ≤ s.maxLen → 0 < len → BadAlphabetOperands modulus start →
      ∃ t, exec (.caesar mode modulus start len) s = .next t ∧ FaultedWith 4 s t) ∧
    (s.seeded = true → len ≤ s.maxLen → ¬ BadAlphabetOperands modulus start →
      (∃ k, k < len ∧ OutsideAlphabet modulus start (s.ibuf.read k)) →
      ∃ t, exec (.caesar mode modulus start len) s = .next t ∧ FaultedWith 5 s t))

/-- R146: `MODE = None` shifts as `Encipher` does, in `CSHIFT` and in `CAESAR`, in every state. -/
def Obligations.NoneShiftsAsEncipher : Prop :=
  ∀ s : State,
    (∀ ch shift modulus start : Byte,
      exec (.cshift .none ch shift modulus start) s = exec (.cshift .encipher ch shift modulus start) s) ∧
    (∀ (modulus start : Byte) (len : Nat),
      exec (.caesar .none modulus start len) s = exec (.caesar .encipher modulus start len) s)

/-- R167: on a seeded instance the empty message succeeds in `VERNAM` and in `CAESAR` with every mode and alphabet,
leaves the Generator, writes no byte of `OBUF` and sets `OLEN` to 0. -/
def Obligations.EmptyMessageDrawsNothing : Prop :=
  ∀ s : State, s.seeded = true →
    (∃ t, exec (.vernam 0) s = .next t ∧ EndedWell s t ∧ t = { s with olen := 0, status := t.status }) ∧
    (∀ mode modulus start, ∃ t, exec (.caesar mode modulus start 0) s = .next t ∧ EndedWell s t ∧
      t = { s with olen := 0, status := t.status })

/-- R30, R33, R34, R35: what each command may change, whether it succeeds or faults; every other register, every byte
of `IBUF`, and every byte of `OBUF` a cipher command does not store to are as they were. -/
def Obligations.EachCommandHasItsFrame : Prop :=
  ∀ s t : State,
    (∀ f len, exec (.seed f len) s = .next t → t = { s with gen := t.gen, status := t.status }) ∧
    (exec .nextw s = .next t → t = { s with gen := t.gen, resp := t.resp, status := t.status }) ∧
    (exec .nextc s = .next t → t = { s with gen := t.gen, resp := t.resp, status := t.status }) ∧
    (∀ len, exec (.vernam len) s = .next t →
      t = { s with gen := t.gen, obuf := t.obuf, olen := t.olen, status := t.status } ∧
      ∀ k, len ≤ k → t.obuf.read k = s.obuf.read k) ∧
    (∀ mode ch shift modulus start, exec (.cshift mode ch shift modulus start) s = .next t →
      t = { s with resp := t.resp, status := t.status }) ∧
    (∀ mode modulus start len, exec (.caesar mode modulus start len) s = .next t →
      t = { s with gen := t.gen, obuf := t.obuf, olen := t.olen, status := t.status } ∧
      ∀ k, len ≤ k → t.obuf.read k = s.obuf.read k)

/-! The Generator (`40_generator.md`). -/

/-- R110 (the wiring is the spec's general knowledge GK1: log entry 9), in the rule's second form: `MIX` is eight lines,
line `k` being `v[k] <- v[k] ^ shift_k(v[k+1])`, `v[k+3] <- v[k+3] + v[k]`, `v[k+1] <- v[k+1] + v[k+2]`, indices modulo
8, and nothing else. -/
def Obligations.MixIsEightLines : Prop :=
  ∀ v : WorkVars, ∃ line : Nat → Vector Word 8,
    line 0 = #v[v.a, v.b, v.c, v.d, v.e, v.f, v.g, v.h] ∧
    line 8 = #v[(mix v).a, (mix v).b, (mix v).c, (mix v).d, (mix v).e, (mix v).f, (mix v).g, (mix v).h] ∧
    ∀ k : Fin 8, ∃ p q : Vector Word 8, ∃ shifted : Word,
      p = line k.val ∧ q = line (k.val + 1) ∧
      (k = 0 → shifted = p[k + 1] <<< 11) ∧ (k = 1 → shifted = p[k + 1] >>> 2) ∧
      (k = 2 → shifted = p[k + 1] <<< 8) ∧ (k = 3 → shifted = p[k + 1] >>> 16) ∧
      (k = 4 → shifted = p[k + 1] <<< 10) ∧ (k = 5 → shifted = p[k + 1] >>> 4) ∧
      (k = 6 → shifted = p[k + 1] <<< 8) ∧ (k = 7 → shifted = p[k + 1] >>> 9) ∧
      q[k] = p[k] ^^^ shifted ∧ q[k + 3] = p[k + 3] + q[k] ∧ q[k + 1] = p[k + 1] + p[k + 2] ∧
      ∀ j : Fin 8, j ≠ k → j ≠ k + 1 → j ≠ k + 3 → q[j] = p[j]

/-- R110 (the wiring is the spec's general knowledge GK1: log entry 9): the values the rule gives for one round and
for the four rounds of R116 on the golden constant. -/
def Obligations.MixWorkedValues : Prop :=
  mix ⟨0x9e3779b9, 0x9e3779b9, 0x9e3779b9, 0x9e3779b9, 0x9e3779b9, 0x9e3779b9, 0x9e3779b9, 0x9e3779b9⟩ =
    ⟨0x3f879d38, 0x0e56dea4, 0x616a0f84, 0x7e4c685d, 0x41d767b9, 0x0b360cdb, 0xf273b188, 0x11273859⟩ ∧
  scrambleStart =
    ⟨0x1367df5a, 0x95d90059, 0xc3163e4b, 0x0f421ad8, 0xd92a4a78, 0xa51a3c49, 0xc4efea1b, 0x30609119⟩

/-- R116 (it runs `MIX`: log entry 9): from `GOLDEN` in all eight working variables, four rounds of `MIX`; then 32 blocks
of 8 words, each adding the staged words of the block when `F = 1`, one round, and the variables stored into the block;
then, only when `F = 1`, 32 blocks more that add the words standing in `mm`. The variables carry on from block to block
and from pass to pass. -/
def Obligations.ScrambleIsBlocksInOrder : Prop :=
  ∀ (f : Bool) (mm rsl : Vector Word 256), ∃ (work : Nat → WorkVars) (words : Nat → Vector Word 256),
    work 0 = mix (mix (mix (mix ⟨0x9e3779b9, 0x9e3779b9, 0x9e3779b9, 0x9e3779b9,
      0x9e3779b9, 0x9e3779b9, 0x9e3779b9, 0x9e3779b9⟩))) ∧
    words 0 = mm ∧ scramble f mm rsl = words (if f then 64 else 32) ∧
    ∀ n, n < 64 → ∃ (j : Fin 32) (src : Vector Word 256) (v w : WorkVars) (p q : Vector Word 256),
      j.val = n % 32 ∧ v = work n ∧ w = work (n + 1) ∧ p = words n ∧ q = words (n + 1) ∧
      (n < 32 → src = rsl) ∧ (32 ≤ n → src = p) ∧
      (n < 32 ∧ f = false → w = mix v) ∧
      (32 ≤ n ∨ f = true → w = mix ⟨v.a + src[8 * j.val], v.b + src[8 * j.val + 1], v.c + src[8 * j.val + 2],
        v.d + src[8 * j.val + 3], v.e + src[8 * j.val + 4], v.f + src[8 * j.val + 5],
        v.g + src[8 * j.val + 6], v.h + src[8 * j.val + 7]⟩) ∧
      q[8 * j.val] = w.a ∧ q[8 * j.val + 1] = w.b ∧ q[8 * j.val + 2] = w.c ∧ q[8 * j.val + 3] = w.d ∧
      q[8 * j.val + 4] = w.e ∧ q[8 * j.val + 5] = w.f ∧ q[8 * j.val + 6] = w.g ∧ q[8 * j.val + 7] = w.h ∧
      ∀ k : Fin 256, k.val / 8 ≠ j.val → q[k] = p[k]

/-- R112, R113 (the operator "fold in" is the spec's general knowledge GK3: log entry 9): `BATCH` is its head and then
256 positions in order, each reading `x` and the partner word before it writes `mm[i]`, and the word at `y >> 10` after. -/
def Obligations.BatchIsPositionsInOrder : Prop :=
  ∃ at_ : Nat → Generator → Generator,
    (∀ q : Generator, at_ 0 q = { q with accC := q.accC + 1, accB := q.accB + (q.accC + 1) }) ∧
    (∀ q : Generator, q.batch = at_ 256 q) ∧
    (∀ (q : Generator) (i : Nat) (h : i < 256), ∃ x a a' y : Word,
      let p := at_ i q
      let r := at_ (i + 1) q
      x = p.mm[i] ∧
      (i % 4 = 0 → a = p.accA ^^^ (p.accA <<< 13)) ∧ (i % 4 = 1 → a = p.accA ^^^ (p.accA >>> 6)) ∧
      (i % 4 = 2 → a = p.accA ^^^ (p.accA <<< 2)) ∧ (i % 4 = 3 → a = p.accA ^^^ (p.accA >>> 16)) ∧
      a' = p.mm[(i + 128) % 256]'(Nat.mod_lt _ (by decide)) + a ∧
      y = p.mm[(x >>> 2).toNat % 256]'(Nat.mod_lt _ (by decide)) + a' + p.accB ∧
      r.mm = p.mm.set i y ∧
      r.accB = r.mm[(y >>> 10).toNat % 256]'(Nat.mod_lt _ (by decide)) + x ∧
      r.rsl = p.rsl.set i r.accB ∧ r.accA = a' ∧ r.accC = p.accC ∧ r.cursor = p.cursor)

/-- R112, R113: a whole `BATCH` adds 1 to `accC`, does not touch `cursor`, and leaves `accB = rsl[255]`. -/
def Obligations.BatchCountsAndEndsOnLastWord : Prop :=
  ∀ q : Generator, q.batch.accC = q.accC + 1 ∧ q.batch.cursor = q.cursor ∧ q.batch.accB = q.batch.rsl[255]

/-- R166 (the value is the spec's derivation, U15; it rests on log entry 9): after `SEED 0, 0` on any state the next
word drawn is `0x9fc09148`. -/
def Obligations.NullSeedFirstWord : Prop :=
  ∀ s : State, ∃ t u, exec (.seed false 0) s = .next t ∧ exec .nextw t = .next u ∧ u.resp = 0x9fc09148

/-- R120: `SEED` may be issued in any state, and the Generator it leaves depends only on `F` and the first
`min(LEN, 256)` bytes of `IBUF`. -/
def Obligations.SeedForgetsTheGenerator : Prop :=
  ∀ (f : Bool) (len : Nat) (s1 s2 : State),
    (∀ k, k < min len 256 → s1.ibuf.read k = s2.ibuf.read k) →
    ∃ t1 t2, exec (.seed f len) s1 = .next t1 ∧ exec (.seed f len) s2 = .next t2 ∧ t1.gen = t2.gen

/-- R165: the Generator after `SEED 0, LEN` is the same for every `LEN`, every `IBUF` and every earlier state. -/
def Obligations.NullSeedIgnoresSeedBytes : Prop :=
  ∀ (len1 len2 : Nat) (s1 s2 : State), ∃ t1 t2,
    exec (.seed false len1) s1 = .next t1 ∧ exec (.seed false len2) s2 = .next t2 ∧ t1.gen = t2.gen

/-- R119: (1) with `LEN = 0` `IBUF` is not read; (2) a seed and the same seed followed by zero bytes, up to 256 in all,
give the same Generator; (4) with `LEN > 256` only `IBUF[0..255]` is used; and `SEED` succeeds for every `LEN`,
above `MAXLEN` included. (3) is (4) at 256 with R115's staging, see `SeedResult`. -/
def Obligations.SeedLengthCorners : Prop :=
  ∀ (f : Bool) (s1 s2 : State),
    (∃ t1 t2, exec (.seed f 0) s1 = .next t1 ∧ exec (.seed f 0) s2 = .next t2 ∧ t1.gen = t2.gen) ∧
    (∀ len n, len ≤ n → n ≤ 256 → (∀ k, k < len → s1.ibuf.read k = s2.ibuf.read k) →
      (∀ k, len ≤ k → k < n → s2.ibuf.read k = 0) →
      ∃ t1 t2, exec (.seed f len) s1 = .next t1 ∧ exec (.seed f n) s2 = .next t2 ∧ t1.gen = t2.gen) ∧
    (∀ len, 256 ≤ len → (∀ k, k < 256 → s1.ibuf.read k = s2.ibuf.read k) →
      ∃ t1 t2, exec (.seed f len) s1 = .next t1 ∧ exec (.seed f 256) s2 = .next t2 ∧ t1.gen = t2.gen) ∧
    (∀ len, ∃ t, exec (.seed f len) s1 = .next t ∧ t.err = 0 ∧ t.seeded = true)

/-- R160: two instances seeded alike have equal Generators, whatever they held before, keep them equal under equal
commands with equal `IBUF` contents, and return the same word at every `NEXTW`. -/
def Obligations.SeededAlikeRunAlike : Prop :=
  ∀ (f : Bool) (len : Nat) (s1 s2 : State), s1.maxLen = s2.maxLen →
    (∀ k, k < min len 256 → s1.ibuf.read k = s2.ibuf.read k) →
    ∃ a1 a2, exec (.seed f len) s1 = .next a1 ∧ exec (.seed f len) s2 = .next a2 ∧ a1.gen = a2.gen ∧
      ∀ script : List (Memory × Instr), ∃ b1 b2,
        execScript script a1 = .next b1 ∧ execScript script a2 = .next b2 ∧ b1.gen = b2.gen ∧
        (∀ before m, script = before ++ [(m, .nextw)] → b1.resp = b2.resp)

/-- R123 (the spec's inference from R112, R117, R121): after `SEED` and `n` `NEXTW`, `cursor` is `n mod 256` and `accC` is
`1 + floor(n/256)` modulo `2^32`; draws 1 to 256 return `rsl[0]` to `rsl[255]` of the first batch, and draw 257 `rsl[0]`
of the second. -/
def Obligations.BatchBoundary : Prop :=
  ∀ (f : Bool) (len n : Nat) (s : State) (m : Memory), ∃ a b c,
    exec (.seed f len) s = .next a ∧
    execScript (List.replicate n (m, .nextw)) a = .next b ∧
    b.gen.cursor.val = n % 256 ∧ b.gen.accC = BitVec.ofNat 32 (1 + n / 256) ∧
    exec .nextw b = .next c ∧
    (∀ h : n < 256, c.resp = a.gen.rsl[n]) ∧
    (n = 256 → c.resp = a.gen.batch.rsl[0])

/-- R168: a successful command other than `SEED` consumes exactly its number of draws, which moves `cursor` by that
number modulo 256; a faulting command consumes none. -/
def Obligations.DrawAccounting : Prop :=
  ∀ (i : Instr) (s : State), (∀ f len, i ≠ .seed f len) → ∃ t, exec i s = .next t ∧
    (t.err = 0 → t.gen = s.gen.afterDraws (drawsUsed i) ∧
      t.gen.cursor.val = (s.gen.cursor.val + drawsUsed i) % 256) ∧
    (t.err ≠ 0 → t.gen = s.gen)

/-! Laws of the cipher layer over pairs of commands (`42_properties.md`, `70_reset_and_hazards.md`). -/

/-- R163: for every seed, flag and message of at most `MAXLEN` bytes, `VERNAM` of the output of `VERNAM`, each right
after a `SEED` with the same seed, gives the message back, on any two states. -/
def Obligations.VernamRoundTrip : Prop :=
  ∀ (f : Bool) (n len : Nat) (s1 s2 : State) (message : Memory), len ≤ s1.maxLen → len ≤ s2.maxLen →
    (∀ k, k < min n 256 → s1.ibuf.read k = s2.ibuf.read k) →
    ∃ a1, execScript [(s1.ibuf, .seed f n), (message, .vernam len)] s1 = .next a1 ∧ a1.err = 0 ∧
      ∀ output : Memory, (∀ k, k < len → output.read k = a1.obuf.read k) →
        ∃ a2, execScript [(s2.ibuf, .seed f n), (output, .vernam len)] s2 = .next a2 ∧ a2.err = 0 ∧
          a2.olen = BitVec.ofNat 32 len ∧ ∀ k, k < len → a2.obuf.read k = message.read k

/-- R164: for every legal alphabet, seed, flag and message of at most `MAXLEN` bytes inside the alphabet, `CAESAR` with
Decipher of the output of `CAESAR` with Encipher or None, each right after a `SEED` with the same seed, gives the
message back, on any two states, and neither command faults. -/
def Obligations.CaesarRoundTrip : Prop :=
  ∀ (f : Bool) (n len : Nat) (modulus start : Byte) (mode : CipherMode) (s1 s2 : State) (message : Memory),
    mode ≠ .decipher → len ≤ s1.maxLen → len ≤ s2.maxLen → ¬ BadAlphabetOperands modulus start →
    (∀ k, k < len → ¬ OutsideAlphabet modulus start (message.read k)) →
    (∀ k, k < min n 256 → s1.ibuf.read k = s2.ibuf.read k) →
    ∃ a1, execScript [(s1.ibuf, .seed f n), (message, .caesar mode modulus start len)] s1 = .next a1 ∧
      a1.err = 0 ∧
      ∀ output : Memory, (∀ k, k < len → output.read k = a1.obuf.read k) →
        ∃ a2, execScript [(s2.ibuf, .seed f n), (output, .caesar .decipher modulus start len)] s2 = .next a2 ∧
          a2.err = 0 ∧ a2.olen = BitVec.ofNat 32 len ∧ ∀ k, k < len → a2.obuf.read k = message.read k

/-- R225 (the spec's inference from R140, R145, R168): a message split in two pieces gives the outputs and the Generator
that the one long command gives, for `VERNAM`, and for `CAESAR` on a message inside a legal alphabet. -/
def Obligations.SplitMessageGivesTheSameOutput : Prop :=
  ∀ (m n : Nat) (s : State) (whole second : Memory), s.seeded = true → m + n ≤ s.maxLen →
    (∀ k, k < n → second.read k = whole.read (m + k)) →
    (∃ a b c, exec (.vernam (m + n)) { s with ibuf := whole } = .next a ∧
      exec (.vernam m) { s with ibuf := whole } = .next b ∧ exec (.vernam n) { b with ibuf := second } = .next c ∧
      (∀ k, k < m → b.obuf.read k = a.obuf.read k) ∧
      (∀ k, k < n → c.obuf.read k = a.obuf.read (m + k)) ∧ c.gen = a.gen) ∧
    (∀ (mode : CipherMode) (modulus start : Byte), ¬ BadAlphabetOperands modulus start →
      (∀ k, k < m + n → ¬ OutsideAlphabet modulus start (whole.read k)) →
      ∃ a b c, exec (.caesar mode modulus start (m + n)) { s with ibuf := whole } = .next a ∧
        exec (.caesar mode modulus start m) { s with ibuf := whole } = .next b ∧
        exec (.caesar mode modulus start n) { b with ibuf := second } = .next c ∧
        (∀ k, k < m → b.obuf.read k = a.obuf.read k) ∧
        (∀ k, k < n → c.obuf.read k = a.obuf.read (m + k)) ∧ c.gen = a.gen)

/-! Rules about the whole machine. -/

/-- R33: `RESP` changes only by a successful `NEXTW`, `NEXTC` or `CSHIFT` or by `RESET`. -/
def Obligations.RespHasItsWriters : Prop :=
  ∀ s t : State, step s = .next t → t.resp ≠ s.resp →
    (∃ p rest, s.host = .reset p :: rest) ∨
    (∃ w rest i, s.host = .writeReg 0 w :: rest ∧ decode w = .command i ∧ t.err = 0 ∧
      (i = .nextw ∨ i = .nextc ∨ ∃ mode ch shift modulus start, i = .cshift mode ch shift modulus start))

/-- R30, R34: `OBUF` and `OLEN` change only by a successful `VERNAM` or `CAESAR`, which stores below its `LEN` and leaves
`LEN` in `OLEN`, or by `RESET`. -/
def Obligations.OutputHasItsWriters : Prop :=
  ∀ s t : State, step s = .next t → (t.obuf ≠ s.obuf ∨ t.olen ≠ s.olen) →
    (∃ p rest, s.host = .reset p :: rest) ∨
    (∃ w rest len, s.host = .writeReg 0 w :: rest ∧ t.err = 0 ∧
      (decode w = .command (.vernam len) ∨
        ∃ mode modulus start, decode w = .command (.caesar mode modulus start len)) ∧
      t.olen = BitVec.ofNat 32 len ∧ ∀ k, len ≤ k → t.obuf.read k = s.obuf.read k)

/-- R28, R35: the Generator changes only by a successful `SEED`, `NEXTW`, `NEXTC`, `VERNAM` or `CAESAR`, or by `RESET`: no
other move of the host reaches it. -/
def Obligations.GeneratorHasItsWriters : Prop :=
  ∀ s t : State, step s = .next t → t.gen ≠ s.gen →
    (∃ p rest, s.host = .reset p :: rest) ∨
    (∃ w rest i, s.host = .writeReg 0 w :: rest ∧ decode w = .command i ∧ t.err = 0 ∧
      ((∃ f len, i = .seed f len) ∨ 0 < drawsUsed i))

/-- R36, R182, U10: before the first `SEED` the Generator's contents reach nothing: two states that differ only there
step to the same outcome, but for the Generator, and after a `SEED` not even that differs. -/
def Obligations.UnseededGeneratorIsUnobservable : Prop :=
  ∀ (s : State) (q : Generator), s.seeded = false →
    (∀ t, step s = .next t → ∃ q', step { s with gen := q } = .next { t with gen := q' } ∧
      (t.seeded = true → q' = t.gen)) ∧
    (∀ r, step s = .fault r → step { s with gen := q } = .fault r) ∧
    (∀ r, step s = .refused r → step { s with gen := q } = .refused r)

/-- R224, R54: bytes of `IBUF` that a command does not read (at or above `LEN`; for `SEED` at or above
`min(LEN, 256)`) do not matter to it. -/
def Obligations.UnreadInputBytesDoNotMatter : Prop :=
  ∀ (i : Instr) (s : State) (m : Memory), (∀ k, k < bytesRead i → m.read k = s.ibuf.read k) →
    ∃ t, exec i s = .next t ∧ exec i { s with ibuf := m } = .next { t with ibuf := m }

/-- R160, R37: every command, run on any two instances of one `MAXLEN` with equal Generators, equal `SEEDED` and equal
bytes of `IBUF` where the command reads them, ends alike in both: the same `ERR`, and equal Generators, `SEEDED` and
`MAXLEN` again, with `IBUF` as it was in each. When it succeeds, what it returns is equal too: `RESP` after `NEXTW`,
`NEXTC` and `CSHIFT`, `OLEN` and the bytes of `OBUF` below `LEN` after `VERNAM` and `CAESAR`. -/
def Obligations.EveryCommandKeepsTwinsEqual : Prop :=
  ∀ (i : Instr) (s1 s2 : State), s1.gen = s2.gen → s1.seeded = s2.seeded → s1.maxLen = s2.maxLen →
    (∀ k, k < bytesRead i → s1.ibuf.read k = s2.ibuf.read k) →
    ∃ t1 t2, exec i s1 = .next t1 ∧ exec i s2 = .next t2 ∧
      t1.gen = t2.gen ∧ t1.seeded = t2.seeded ∧ t1.maxLen = t2.maxLen ∧ t1.err = t2.err ∧
      t1.ibuf = s1.ibuf ∧ t2.ibuf = s2.ibuf ∧
      (t1.err = 0 → (i = .nextw ∨ i = .nextc ∨
          ∃ mode ch shift modulus start, i = .cshift mode ch shift modulus start) → t1.resp = t2.resp) ∧
      (t1.err = 0 → ∀ len, (i = .vernam len ∨ ∃ mode modulus start, i = .caesar mode modulus start len) →
        t1.olen = t2.olen ∧ ∀ k, k < len → t1.obuf.read k = t2.obuf.read k)
end

