-- ==== Sys2Proof/Laws/Memory.lean ====
section
/-!
SUPPORT. The byte buffers: what a read gives after a write, and that every operation keeps the canonical
form and the range of indices.
-/

namespace Sys2Proof.Machine

theorem Memory.read_erase_same (m : Memory) (k : Nat) : (Memory.erase m k).read k = Config.fillByte := by
  induction m with
  | nil => rfl
  | cons c rest ih =>
    by_cases h : c.1 = k
    · simpa [Memory.erase, h] using ih
    · simpa [Memory.erase, h, Memory.read] using ih

theorem Memory.read_erase_other (m : Memory) {j k : Nat} (hjk : j ≠ k) :
    (Memory.erase m k).read j = m.read j := by
  induction m with
  | nil => rfl
  | cons c rest ih =>
    have ih' : Memory.read (rest.filter fun c => decide (c.1 ≠ k)) j = Memory.read rest j := ih
    by_cases h : c.1 = k
    · simp [Memory.erase, h, Memory.read, Ne.symm hjk]; simpa using ih'
    · simp [Memory.erase, h, Memory.read]; rw [← ih']; simp

theorem Memory.read_insert (m : Memory) (j k : Nat) (v : Byte) (hk : ∀ c ∈ m, c.1 ≠ k) :
    (Memory.insert m k v).read j = if j = k then v else m.read j := by
  induction m with
  | nil => simp only [Memory.insert, Memory.read, eq_comm (a := k)]
  | cons c rest ih =>
    have hc : c.1 ≠ k := hk c (by simp)
    have ih := ih fun d hd => hk d (by simp [hd])
    by_cases hlt : c.1 < k
    · simp only [Memory.insert, hlt, if_true, Memory.read, ih]
      by_cases hcj : c.1 = j
      · have : j ≠ k := hcj ▸ hc
        simp [hcj, this]
      · simp [hcj]
    · simp only [Memory.insert, hlt, if_false, Memory.read, eq_comm (a := k)]

/-- A byte read after a write: the written byte at its index, the old one everywhere else. -/
theorem Memory.read_write (m : Memory) (j k : Nat) (v : Byte) :
    (m.write k v).read j = if j = k then v else m.read j := by
  unfold Memory.write
  by_cases hv : v = Config.fillByte
  · by_cases hj : j = k
    · subst hj; simp [hv, Memory.read_erase_same]
    · simp [hv, hj, Memory.read_erase_other m hj]
  · rw [if_neg hv, Memory.read_insert _ _ _ _ (by intro c hc; simpa using (List.mem_filter.1 hc).2)]
    by_cases hj : j = k
    · simp [hj]
    · simp [hj, Memory.read_erase_other m hj]

@[simp] theorem Memory.read_write_same (m : Memory) (k : Nat) (v : Byte) : (m.write k v).read k = v := by
  simp [Memory.read_write]

theorem Memory.read_write_other (m : Memory) {j k : Nat} (v : Byte) (h : j ≠ k) :
    (m.write k v).read j = m.read j := by
  simp [Memory.read_write, h]

/-! Canonical form. -/

theorem Memory.rising_filter (m : Memory) (p : Host.Cell → Bool) (h : m.rising = true) :
    Memory.rising (m.filter p) = true := by
  induction m with
  | nil => rfl
  | cons c rest ih =>
    simp only [Memory.rising, Bool.and_eq_true, List.all_eq_true] at h
    by_cases hp : p c
    · simp only [List.filter_cons, hp, if_true, Memory.rising, Bool.and_eq_true, List.all_eq_true]
      exact ⟨fun d hd => h.1 d (List.mem_of_mem_filter hd), ih h.2⟩
    · simpa [List.filter_cons, hp] using ih h.2

theorem Memory.mem_insert (m : Memory) (k : Nat) (v : Byte) (c : Host.Cell) :
    c ∈ Memory.insert m k v ↔ c = (k, v) ∨ c ∈ m := by
  induction m with
  | nil => simp [Memory.insert]
  | cons d rest ih =>
    by_cases h : d.1 < k
    · simp only [Memory.insert, h, if_true, List.mem_cons, ih]; tauto
    · simp [Memory.insert, h]

theorem Memory.rising_insert (m : Memory) (k : Nat) (v : Byte) (h : m.rising = true)
    (hk : ∀ c ∈ m, c.1 ≠ k) : (Memory.insert m k v).rising = true := by
  induction m with
  | nil => rfl
  | cons c rest ih =>
    have h' := h
    simp only [Memory.rising, Bool.and_eq_true, List.all_eq_true, decide_eq_true_eq] at h
    by_cases hlt : c.1 < k
    · simp only [Memory.insert, hlt, if_true, Memory.rising, Bool.and_eq_true, List.all_eq_true,
        decide_eq_true_eq, Memory.mem_insert]
      refine ⟨?_, ih h.2 fun d hd => hk d (by simp [hd])⟩
      rintro d (rfl | hd)
      · exact hlt
      · exact h.1 d hd
    · have hck : k < c.1 := by
        have := hk c (by simp)
        omega
      rw [Memory.insert, if_neg hlt, Memory.rising, Bool.and_eq_true]
      refine ⟨?_, h'⟩
      simp only [List.all_eq_true, decide_eq_true_eq, List.mem_cons]
      rintro d (rfl | hd)
      · exact hck
      · exact hck.trans (h.1 d hd)

/-- Every write keeps the canonical form. -/
theorem Memory.wf_write (m : Memory) (k : Nat) (v : Byte) (h : m.wf = true) : (m.write k v).wf = true := by
  simp only [Memory.wf, Bool.and_eq_true, List.all_eq_true, decide_eq_true_eq] at h ⊢
  have hr : (Memory.erase m k).rising = true := Memory.rising_filter m _ h.1
  have hv : ∀ c ∈ Memory.erase m k, c.2 ≠ Config.fillByte := fun c hc => h.2 c (List.mem_of_mem_filter hc)
  unfold Memory.write
  split
  · exact ⟨hr, hv⟩
  · rename_i hne
    refine ⟨Memory.rising_insert _ _ _ hr (by intro c hc; simpa using (List.mem_filter.1 hc).2), ?_⟩
    intro c hc
    rcases (Memory.mem_insert _ _ _ _).1 hc with rfl | hc
    · exact hne
    · exact hv c hc

/-- A write at an index that exists keeps every listed index existing. -/
theorem Memory.within_write (m : Memory) (k n : Nat) (v : Byte) (hk : k < n) (h : m.within n = true) :
    (m.write k v).within n = true := by
  simp only [Memory.within, List.all_eq_true, decide_eq_true_eq] at h ⊢
  have he : ∀ c ∈ Memory.erase m k, c.1 < n := fun c hc => h c (List.mem_of_mem_filter hc)
  unfold Memory.write
  split
  · exact he
  · intro c hc
    rcases (Memory.mem_insert _ _ _ _).1 hc with rfl | hc
    · exact hk
    · exact he c hc

/-- The contents a `RESET` leaves are canonical and exist. -/
theorem Memory.ofCells_wf_within (n : Nat) (cells : List Host.Cell) :
    (Memory.ofCells n cells).wf = true ∧ (Memory.ofCells n cells).within n = true := by
  suffices h : ∀ m : Memory, m.wf = true ∧ m.within n = true →
      (cells.foldl (fun m c => if c.1 < n then Memory.write m c.1 c.2 else m) m).wf = true ∧
      Memory.within (cells.foldl (fun m c => if c.1 < n then Memory.write m c.1 c.2 else m) m) n = true from
    h [] ⟨rfl, rfl⟩
  induction cells with
  | nil => intro m h; exact h
  | cons c rest ih =>
    intro m h
    apply ih
    beta_reduce
    split
    · rename_i hc
      exact ⟨Memory.wf_write m _ _ h.1, Memory.within_write m _ _ _ hc h.2⟩
    · exact h

/-- Pairs added at the end of the contents one by one. -/
theorem Memory.ofCells_append_one (n : Nat) (cells : List Host.Cell) (c : Host.Cell) :
    Memory.ofCells n (cells ++ [c]) =
      if c.1 < n then (Memory.ofCells n cells).write c.1 c.2 else Memory.ofCells n cells := by
  simp [Memory.ofCells, List.foldl_append]

/-- The byte at an index that exists is that of the last pair that names it. -/
theorem Memory.read_ofCells_last (n k : Nat) (v : Byte) (before after : List Host.Cell) (hk : k < n)
    (h : ∀ c ∈ after, c.1 ≠ k) : (Memory.ofCells n (before ++ (k, v) :: after)).read k = v := by
  induction after using List.reverseRecOn with
  | nil => simp [Memory.ofCells_append_one, hk]
  | append_singleton rest c ih =>
    have hc : k ≠ c.1 := (h c (by simp)).symm
    rw [← List.cons_append, ← List.append_assoc, Memory.ofCells_append_one]
    split
    · rw [Memory.read_write_other _ _ hc]
      exact ih fun d hd => h d (by simp [hd])
    · exact ih fun d hd => h d (by simp [hd])

end Sys2Proof.Machine
end

