-- ==== Sys2Proof/Laws/Mixer.lean ====
section
/-!
SUPPORT. What the mixer's shared operations do: one position of `BATCH`, a run of positions, a draw, many
draws, the character map, and the staging of a seed.
-/

namespace Sys2Proof.Machine

/-- A position of `BATCH` leaves `accC` and `cursor`, and leaves in `accB` the word it stored at `rsl[i]`. -/
theorem Generator.batchPosition_keeps (q : Generator) (i : Fin 256) :
    (q.batchPosition i).accC = q.accC ∧ (q.batchPosition i).cursor = q.cursor ∧
    (q.batchPosition i).rsl[i] = (q.batchPosition i).accB := by
  simp [Generator.batchPosition]

/-- A run of positions leaves `accC` and `cursor`. -/
theorem Generator.batchPositions_keep (is : List (Fin 256)) (q : Generator) :
    (is.foldl Generator.batchPosition q).accC = q.accC ∧
    (is.foldl Generator.batchPosition q).cursor = q.cursor := by
  induction is generalizing q with
  | nil => exact ⟨rfl, rfl⟩
  | cons i rest ih =>
    have h := Generator.batchPosition_keeps q i
    exact ⟨(ih _).1.trans h.1, (ih _).2.trans h.2.1⟩

/-- A run of positions that ends with position `i` leaves `accB = rsl[i]`. -/
theorem Generator.batchPositions_last (is : List (Fin 256)) (i : Fin 256) (q : Generator) :
    ((is ++ [i]).foldl Generator.batchPosition q).accB =
      ((is ++ [i]).foldl Generator.batchPosition q).rsl[i] := by
  rw [List.foldl_append]
  exact (Generator.batchPosition_keeps _ i).2.2.symm

/-- The positions of `BATCH` end with 255. -/
theorem finRange_ends : ∃ is, List.finRange 256 = is ++ [(255 : Fin 256)] :=
  ⟨(List.finRange 256).dropLast, by decide +kernel⟩

/-- `BATCH` as a run of positions over a list that names every position and ends with 255; the list is kept
abstract so that no proof unfolds its 256 entries. -/
theorem Generator.batch_run :
    ∃ is : List (Fin 256), (∀ j, j ∈ is) ∧ (∃ before, is = before ++ [255]) ∧
      ∀ q : Generator, q.batch = is.foldl Generator.batchPosition q.batchHead :=
  ⟨List.finRange 256, List.mem_finRange, finRange_ends, fun q => by unfold Generator.batch; exact Eq.refl _⟩

/-- The state part of a draw (R121). -/
@[simp] theorem Generator.draw_snd (q : Generator) : q.draw.2 = q.advance := rfl

/-- The word part of a draw (R121). -/
@[simp] theorem Generator.draw_fst (q : Generator) : q.draw.1 = q.rsl[q.cursor] := rfl

/-- What a draw does to the Generator (R121). -/
theorem Generator.advance_cases (q : Generator) :
    (q.cursor = 255 ∧ q.advance = { q.batch with cursor := 0 }) ∨
    (q.cursor ≠ 255 ∧ q.advance = { q with cursor := q.cursor + 1 }) := by
  by_cases h : q.cursor = 255
  · exact .inl ⟨h, by simp [Generator.advance, h]⟩
  · exact .inr ⟨h, by simp [Generator.advance, h]⟩

/-- Draws compose: `m` draws and then `n` are `m + n`. -/
theorem Generator.afterDraws_add (q : Generator) (m n : Nat) :
    (q.afterDraws m).afterDraws n = q.afterDraws (m + n) := by
  induction n with
  | zero => rfl
  | succ n ih => simp only [Generator.afterDraws, Nat.add_eq, ih]

/-- One draw and then `n` are `n + 1`. -/
theorem Generator.afterDraws_succ (q : Generator) (n : Nat) :
    (q.draw.2).afterDraws n = q.afterDraws (n + 1) := by
  rw [Nat.add_comm, ← Generator.afterDraws_add]
  rfl

/-- The character drawn after `m` draws and then `k` more. -/
theorem Generator.keyChar_afterDraws (q : Generator) (m k : Nat) :
    (q.afterDraws m).keyChar k = q.keyChar (m + k) := by
  rw [Generator.keyChar, Generator.afterDraws_add]
  rfl

/-- The character map (R124): the remainder by 95 plus 32, without loss, so in 32..126. -/
theorem printable_toNat (w : Word) : (printable w).toNat = w.toNat % 95 + 32 := by
  have h : w.toNat % 95 < 95 := Nat.mod_lt _ (by decide)
  rw [printable, BitVec.toNat_ofNat]
  exact Nat.mod_eq_of_lt (by simp only [printMod, printBase]; omega)

/-- `zext_32` loses nothing. -/
@[simp] theorem zext32_toNat (b : Byte) : (zext32 b).toNat = b.toNat := by
  rw [zext32, BitVec.toNat_setWidth]
  exact Nat.mod_eq_of_lt (b.isLt.trans (by decide))

/-- Staged seed word `k` (R115). -/
theorem stagedSeed_getElem (ibuf : Memory) (len : Nat) (k : Fin 256) :
    (stagedSeed ibuf len)[k] = seedWord ibuf len k.val := by
  simp only [stagedSeed, Fin.getElem_fin, Vector.getElem_ofFn]

/-- Two buffers that agree on the bytes a seed takes stage the same words (R115, R119). -/
theorem stagedSeed_congr {m1 m2 : Memory} {len1 len2 : Nat}
    (h : ∀ k, k < 256 → seedWord m1 len1 k = seedWord m2 len2 k) :
    stagedSeed m1 len1 = stagedSeed m2 len2 := by
  unfold stagedSeed
  congr 1
  funext k
  exact h k.val k.isLt

/-- A position of `BATCH` does not read `rsl` or `cursor`, nor does it read `rsl` but at its own index after
writing it: two Generators that differ there only keep equal `mm`, `accA`, `accB`, `accC`. -/
theorem Generator.batchPosition_congr {q r : Generator} (i : Fin 256) (hmm : q.mm = r.mm)
    (hA : q.accA = r.accA) (hB : q.accB = r.accB) (hC : q.accC = r.accC) :
    (q.batchPosition i).mm = (r.batchPosition i).mm ∧ (q.batchPosition i).accA = (r.batchPosition i).accA ∧
    (q.batchPosition i).accB = (r.batchPosition i).accB ∧ (q.batchPosition i).accC = (r.batchPosition i).accC ∧
    ∀ j : Fin 256, (j = i ∨ q.rsl[j] = r.rsl[j]) → (q.batchPosition i).rsl[j] = (r.batchPosition i).rsl[j] := by
  obtain ⟨qm, qr, qc, qa, qb, qC⟩ := q
  obtain ⟨rm, rr, rc, ra, rb, rC⟩ := r
  dsimp only at hmm hA hB hC
  subst hmm hA hB hC
  refine ⟨rfl, rfl, rfl, rfl, ?_⟩
  intro j hj
  by_cases hij : i = j
  · subst hij; simp [Generator.batchPosition]
  · have hv : i.val ≠ j.val := fun h => hij (Fin.ext h)
    rcases hj with hj | hj
    · exact absurd hj.symm hij
    · simpa [Generator.batchPosition, Vector.getElem_set, hv] using hj

/-- A run of positions on two Generators with equal `mm` and accumulators keeps those equal, and makes `rsl` equal
at every position it names: what stood in `rsl` and `cursor` before a batch does not reach it (R112, R115). -/
theorem Generator.batchPositions_congr (is : List (Fin 256)) {q r : Generator} (hmm : q.mm = r.mm)
    (hA : q.accA = r.accA) (hB : q.accB = r.accB) (hC : q.accC = r.accC) :
    (is.foldl Generator.batchPosition q).mm = (is.foldl Generator.batchPosition r).mm ∧
    (is.foldl Generator.batchPosition q).accA = (is.foldl Generator.batchPosition r).accA ∧
    (is.foldl Generator.batchPosition q).accB = (is.foldl Generator.batchPosition r).accB ∧
    (is.foldl Generator.batchPosition q).accC = (is.foldl Generator.batchPosition r).accC ∧
    ∀ j : Fin 256, (j ∈ is ∨ q.rsl[j] = r.rsl[j]) →
      (is.foldl Generator.batchPosition q).rsl[j] = (is.foldl Generator.batchPosition r).rsl[j] := by
  induction is generalizing q r with
  | nil => exact ⟨hmm, hA, hB, hC, fun j hj => hj.resolve_left (by simp)⟩
  | cons i rest ih =>
    obtain ⟨e1, e2, e3, e4, e5⟩ := Generator.batchPosition_congr i hmm hA hB hC
    obtain ⟨f1, f2, f3, f4, f5⟩ := ih e1 e2 e3 e4
    refine ⟨f1, f2, f3, f4, fun j hj => f5 j ?_⟩
    rcases hj with hj | hj
    · rcases List.mem_cons.1 hj with rfl | hj
      · exact .inr (e5 _ (.inl rfl))
      · exact .inl hj
    · exact .inr (e5 _ (.inr hj))

/-- With `F = 0` the scrambling does not read the staged seed (R116, R118). -/
theorem scramble_false (mm rsl1 rsl2 : Vector Word 256) : scramble false mm rsl1 = scramble false mm rsl2 := by
  unfold scramble
  generalize List.range 32 = blocks
  rfl

end Sys2Proof.Machine
end

