-- ==== Sys2Proof/Laws/Cipher.lean ====
section
/-!
SUPPORT. What the cipher layer's shared operations do: the checks in the words of the rules, the Caesar
formula, and the message loop.
-/

namespace Sys2Proof.Machine

/-- The alphabet check is the rule's condition (R142, R184). -/
theorem legalAlphabet_eq_false (modulus start : Byte) :
    legalAlphabet modulus start = false ↔ BadAlphabetOperands modulus start := by
  simp only [legalAlphabet, BadAlphabetOperands, Bool.and_eq_false_iff, decide_eq_false_iff_not]
  omega

theorem legalAlphabet_eq_true (modulus start : Byte) :
    legalAlphabet modulus start = true ↔ ¬ BadAlphabetOperands modulus start := by
  rw [← legalAlphabet_eq_false, Bool.not_eq_false]

/-- The character check is the rule's condition (R142, R185). -/
theorem inAlphabet_eq_false (modulus start ch : Byte) :
    inAlphabet modulus start ch = false ↔ OutsideAlphabet modulus start ch := by
  simp only [inAlphabet, OutsideAlphabet, Bool.and_eq_false_iff, decide_eq_false_iff_not]
  omega

theorem inAlphabet_eq_true (modulus start ch : Byte) :
    inAlphabet modulus start ch = true ↔ ¬ OutsideAlphabet modulus start ch := by
  rw [← inAlphabet_eq_false, Bool.not_eq_false]

/-- The message check finds a character outside exactly when there is one (R148). -/
theorem messageInAlphabet_eq_false (ibuf : Memory) (modulus start : Byte) (len : Nat) :
    messageInAlphabet ibuf modulus start len = false ↔
      ∃ k, k < len ∧ OutsideAlphabet modulus start (ibuf.read k) := by
  simp [messageInAlphabet, inAlphabet_eq_false]

/-- The message loop from index `k` over `n` bytes: `n` draws, and each output byte in its place; no other byte
is written (R140, R145). -/
theorem cipherLoop_spec (f : Byte → Byte → Byte) (ibuf : Memory) (n k : Nat) (q : Generator) (obuf : Memory) :
    (cipherLoop f ibuf n k q obuf).1 = q.afterDraws n ∧
    (∀ j, (cipherLoop f ibuf n k q obuf).2.read j =
      if k ≤ j ∧ j < k + n then f (ibuf.read j) (q.keyChar (j - k)) else obuf.read j) := by
  induction n generalizing k q obuf with
  | zero =>
    refine ⟨rfl, fun j => ?_⟩
    rw [if_neg (by omega)]
    rfl
  | succ n ih =>
    obtain ⟨h1, h2⟩ := ih (k + 1) q.drawc.2 (obuf.write k (f (ibuf.read k) q.drawc.1))
    refine ⟨h1.trans (Generator.afterDraws_succ q n), fun j => ?_⟩
    rw [cipherLoop, h2, Memory.read_write]
    by_cases hjk : j = k
    · subst hjk
      rw [if_neg (by omega), if_pos rfl, if_pos (by omega), Nat.sub_self]
      rfl
    · by_cases hin : k ≤ j ∧ j < k + (n + 1)
      · rw [if_pos (by omega), if_pos hin]
        rw [show j - k = 1 + (j - (k + 1)) by omega, ← Generator.keyChar_afterDraws q 1]
        rfl
      · rw [if_neg (by omega), if_neg hjk, if_neg hin]

/-- The message loop keeps the output canonical and inside the buffer. -/
theorem cipherLoop_wf_within (f : Byte → Byte → Byte) (ibuf : Memory) (n k limit : Nat) (q : Generator)
    (obuf : Memory) (hlim : k + n ≤ limit) (h : obuf.wf = true ∧ obuf.within limit = true) :
    (cipherLoop f ibuf n k q obuf).2.wf = true ∧ (cipherLoop f ibuf n k q obuf).2.within limit = true := by
  induction n generalizing k q obuf with
  | zero => exact h
  | succ n ih =>
    exact ih (k + 1) _ _ (by omega)
      ⟨Memory.wf_write _ _ _ h.1, Memory.within_write _ _ _ _ (by omega) h.2⟩

/-- The loop reads only the message's bytes. -/
theorem cipherLoop_congr (f : Byte → Byte → Byte) {m1 m2 : Memory} (n k : Nat) (q : Generator) (obuf : Memory)
    (h : ∀ j, k ≤ j → j < k + n → m1.read j = m2.read j) :
    cipherLoop f m1 n k q obuf = cipherLoop f m2 n k q obuf := by
  induction n generalizing k q obuf with
  | zero => rfl
  | succ n ih =>
    rw [cipherLoop, cipherLoop, h k (by omega) (by omega)]
    exact ih (k + 1) _ _ fun j h1 h2 => h j (by omega) (by omega)

end Sys2Proof.Machine
end

