-- ==== Sys2Proof/Laws/Decode.lean ====
section
/-!
SUPPORT. The opcode table: no word is selected by two rows, and the field accessors read back what the
encoder places.
-/

namespace Sys2Proof

/-- Any two rows differ at a bit both masks fix (R84): decoding does not depend on the order of the rows. -/
theorem opcodeRows_disjoint :
    opcodeRows.Pairwise fun a b => a.pattern &&& (a.mask &&& b.mask) ≠ b.pattern &&& (a.mask &&& b.mask) := by
  decide

/-- A word selected by one of two rows that differ at a common bit is not selected by the other. -/
theorem OpcodeRow.not_selects_of_disjoint {a b : OpcodeRow} {w : CmdWord}
    (h : a.pattern &&& (a.mask &&& b.mask) ≠ b.pattern &&& (a.mask &&& b.mask)) (ha : a.selects w = true) :
    b.selects w = false := by
  by_contra hb
  simp only [OpcodeRow.selects, beq_iff_eq, Bool.not_eq_false] at ha hb
  apply h
  rw [← ha, ← hb]
  apply BitVec.eq_of_getLsbD_eq
  intro i _
  simp only [BitVec.getLsbD_and]
  cases w.getLsbD i <;> cases a.mask.getLsbD i <;> cases b.mask.getLsbD i <;> rfl

/-- `modeOfField` undoes `modeBits` (R85). -/
@[simp] theorem modeOfField_modeBits (m : CipherMode) : modeOfField (modeBits m) = some m := by
  cases m <;> rfl

/-- A mode read from a field is the field's mode (R85). -/
theorem modeBits_of_modeOfField {b : BitVec 2} {m : CipherMode} (h : modeOfField b = some m) :
    modeBits m = b := by
  revert b m
  decide

end Sys2Proof
end

