-- ==== Sys2Proof/Laws/State.lean ====
section
/-!
SUPPORT. The small lemmas of the state's named updates, one per field per update, so that no proof
unfolds a record.
-/

namespace Sys2Proof.Machine

/-! `State.raise` writes `status` alone. -/

@[simp] theorem State.raise_maxLen (s : State) (F : CommandFault) : (s.raise F).maxLen = s.maxLen := rfl
@[simp] theorem State.raise_gen (s : State) (F : CommandFault) : (s.raise F).gen = s.gen := rfl
@[simp] theorem State.raise_ibuf (s : State) (F : CommandFault) : (s.raise F).ibuf = s.ibuf := rfl
@[simp] theorem State.raise_obuf (s : State) (F : CommandFault) : (s.raise F).obuf = s.obuf := rfl
@[simp] theorem State.raise_resp (s : State) (F : CommandFault) : (s.raise F).resp = s.resp := rfl
@[simp] theorem State.raise_olen (s : State) (F : CommandFault) : (s.raise F).olen = s.olen := rfl
@[simp] theorem State.raise_host (s : State) (F : CommandFault) : (s.raise F).host = s.host := rfl
@[simp] theorem State.raise_rdata (s : State) (F : CommandFault) : (s.raise F).rdata = s.rdata := rfl
@[simp] theorem State.raise_status (s : State) (F : CommandFault) :
    (s.raise F).status = statusSetFlt (statusSetErr s.status F.code) := rfl

/-! `State.succeed` writes `status` alone. -/

@[simp] theorem State.succeed_maxLen (s : State) : s.succeed.maxLen = s.maxLen := rfl
@[simp] theorem State.succeed_gen (s : State) : s.succeed.gen = s.gen := rfl
@[simp] theorem State.succeed_ibuf (s : State) : s.succeed.ibuf = s.ibuf := rfl
@[simp] theorem State.succeed_obuf (s : State) : s.succeed.obuf = s.obuf := rfl
@[simp] theorem State.succeed_resp (s : State) : s.succeed.resp = s.resp := rfl
@[simp] theorem State.succeed_olen (s : State) : s.succeed.olen = s.olen := rfl
@[simp] theorem State.succeed_host (s : State) : s.succeed.host = s.host := rfl
@[simp] theorem State.succeed_rdata (s : State) : s.succeed.rdata = s.rdata := rfl
@[simp] theorem State.succeed_status (s : State) : s.succeed.status = statusSetErr s.status 0 := rfl

/-! `State.runCipher` writes `gen`, `obuf`, `olen` and `status`. -/

section
variable (s : State) (f : Byte → Byte → Byte) (len : Nat)

@[simp] theorem State.runCipher_maxLen : (s.runCipher f len).maxLen = s.maxLen := rfl
@[simp] theorem State.runCipher_ibuf : (s.runCipher f len).ibuf = s.ibuf := rfl
@[simp] theorem State.runCipher_resp : (s.runCipher f len).resp = s.resp := rfl
@[simp] theorem State.runCipher_host : (s.runCipher f len).host = s.host := rfl
@[simp] theorem State.runCipher_rdata : (s.runCipher f len).rdata = s.rdata := rfl
@[simp] theorem State.runCipher_olen : (s.runCipher f len).olen = BitVec.ofNat 32 len := rfl
@[simp] theorem State.runCipher_status : (s.runCipher f len).status = statusSetErr s.status 0 := rfl

end

/-! `State.afterReset`. -/

section
variable (s : State) (p : PowerOn)

@[simp] theorem State.afterReset_maxLen : (s.afterReset p).maxLen = s.maxLen := rfl
@[simp] theorem State.afterReset_gen : (s.afterReset p).gen = p.gen := rfl
@[simp] theorem State.afterReset_ibuf : (s.afterReset p).ibuf = Memory.ofCells s.maxLen p.ibuf := rfl
@[simp] theorem State.afterReset_obuf : (s.afterReset p).obuf = Memory.ofCells s.maxLen p.obuf := rfl
@[simp] theorem State.afterReset_status : (s.afterReset p).status = 0 := rfl
@[simp] theorem State.afterReset_resp : (s.afterReset p).resp = 0 := rfl
@[simp] theorem State.afterReset_olen : (s.afterReset p).olen = 0 := rfl
@[simp] theorem State.afterReset_host : (s.afterReset p).host = s.host := rfl
@[simp] theorem State.afterReset_rdata : (s.afterReset p).rdata = s.rdata := rfl

end

/-! `State.withFetchWord` writes `host` alone. -/

section
variable (s : State) (nbits w : Nat)

@[simp] theorem State.withFetchWord_maxLen : (s.withFetchWord nbits w).maxLen = s.maxLen := rfl
@[simp] theorem State.withFetchWord_gen : (s.withFetchWord nbits w).gen = s.gen := rfl
@[simp] theorem State.withFetchWord_ibuf : (s.withFetchWord nbits w).ibuf = s.ibuf := rfl
@[simp] theorem State.withFetchWord_obuf : (s.withFetchWord nbits w).obuf = s.obuf := rfl
@[simp] theorem State.withFetchWord_status : (s.withFetchWord nbits w).status = s.status := rfl
@[simp] theorem State.withFetchWord_resp : (s.withFetchWord nbits w).resp = s.resp := rfl
@[simp] theorem State.withFetchWord_olen : (s.withFetchWord nbits w).olen = s.olen := rfl
@[simp] theorem State.withFetchWord_rdata : (s.withFetchWord nbits w).rdata = s.rdata := rfl
@[simp] theorem State.withFetchWord_host :
    (s.withFetchWord nbits w).host = .writeReg 0 (tableWord nbits w) :: s.host := rfl

end

end Sys2Proof.Machine
end

