-- ==== Sys2Proof/Laws/Flags.lean ====
section
/-!
SUPPORT. `STATUS` field by field: what each write of one field does to every field.
-/

namespace Sys2Proof.Machine

section
variable (st : Word) (code : Byte)

@[simp] theorem statusErr_setErr : statusErr (statusSetErr st code) = code := by
  apply BitVec.eq_of_getLsbD_eq
  intro i hi
  interval_cases i <;> simp [statusErr, statusSetErr]

@[simp] theorem statusSeeded_setErr : statusSeeded (statusSetErr st code) = statusSeeded st := by
  simp [statusSeeded, statusSetErr]

@[simp] theorem statusFlt_setErr : statusFlt (statusSetErr st code) = statusFlt st := by
  simp [statusFlt, statusSetErr]

@[simp] theorem statusReserved_setErr : statusReserved (statusSetErr st code) = statusReserved st := by
  apply BitVec.eq_of_getLsbD_eq
  intro i hi
  interval_cases i <;> simp [statusReserved, statusSetErr]

@[simp] theorem statusErr_setFlt : statusErr (statusSetFlt st) = statusErr st := by
  apply BitVec.eq_of_getLsbD_eq
  intro i hi
  interval_cases i <;> simp [statusErr, statusSetFlt]

@[simp] theorem statusSeeded_setFlt : statusSeeded (statusSetFlt st) = statusSeeded st := by
  simp [statusSeeded, statusSetFlt]

@[simp] theorem statusFlt_setFlt : statusFlt (statusSetFlt st) = true := by
  simp [statusFlt, statusSetFlt]

@[simp] theorem statusReserved_setFlt : statusReserved (statusSetFlt st) = statusReserved st := by
  apply BitVec.eq_of_getLsbD_eq
  intro i hi
  interval_cases i <;> simp [statusReserved, statusSetFlt]

@[simp] theorem statusErr_setSeeded : statusErr (statusSetSeeded st) = statusErr st := by
  apply BitVec.eq_of_getLsbD_eq
  intro i hi
  interval_cases i <;> simp [statusErr, statusSetSeeded]

@[simp] theorem statusSeeded_setSeeded : statusSeeded (statusSetSeeded st) = true := by
  simp [statusSeeded, statusSetSeeded]

@[simp] theorem statusFlt_setSeeded : statusFlt (statusSetSeeded st) = statusFlt st := by
  simp [statusFlt, statusSetSeeded]

@[simp] theorem statusReserved_setSeeded : statusReserved (statusSetSeeded st) = statusReserved st := by
  apply BitVec.eq_of_getLsbD_eq
  intro i hi
  interval_cases i <;> simp [statusReserved, statusSetSeeded]

end

/-! The same through the state. -/

section
variable (s : State) (F : CommandFault)

@[simp] theorem State.raise_err : (s.raise F).err = F.code := by simp [State.err]
@[simp] theorem State.raise_flt : (s.raise F).flt = true := by simp [State.flt]
@[simp] theorem State.raise_seeded : (s.raise F).seeded = s.seeded := by simp [State.seeded]
@[simp] theorem State.succeed_err : s.succeed.err = 0 := by simp [State.err]
@[simp] theorem State.succeed_flt : s.succeed.flt = s.flt := by simp [State.flt]
@[simp] theorem State.succeed_seeded : s.succeed.seeded = s.seeded := by simp [State.seeded]

end

/-- A fault's code is 1 to 5 (R180). -/
theorem CommandFault.code_range (F : CommandFault) : 1 ≤ F.code.toNat ∧ F.code.toNat ≤ 5 := by
  cases F <;> decide

theorem CommandFault.code_ne_zero (F : CommandFault) : F.code ≠ 0 := by
  cases F <;> decide

end Sys2Proof.Machine
end

