-- ==== Sys2Proof/Laws/Step.lean ====
section
/-!
SUPPORT. What one step can be: the oldest move of the host decides, and each case is one equation.
-/

namespace Sys2Proof.Machine

/-- Numbers above 3 name no register (R50). -/
theorem registerAt_eq_none {n : Nat} : registerAt n = none ↔ 4 ≤ n := by
  match n with
  | 0 | 1 | 2 | 3 => simp [registerAt]
  | n + 4 => simp [registerAt]

/-- A write of a register runs something only at number 0, where it is a command (R58). -/
theorem hostWriteReg_cases (s : State) (n : Nat) (w : CmdWord) :
    (n = 0 ∧ s.hostWriteReg n w = s.acceptCommand w) ∨
    (0 < n ∧ n < 4 ∧ s.hostWriteReg n w = .ended (.refused .noSuchMove)) ∨
    (4 ≤ n ∧ s.hostWriteReg n w = .ended (.fault .noSuchElement)) := by
  match n with
  | 0 => exact .inl ⟨rfl, rfl⟩
  | 1 => exact .inr (.inl ⟨by omega, by omega, rfl⟩)
  | 2 => exact .inr (.inl ⟨by omega, by omega, rfl⟩)
  | 3 => exact .inr (.inl ⟨by omega, by omega, rfl⟩)
  | n + 4 => exact .inr (.inr ⟨by omega, rfl⟩)

/-- A step from a state with a register to be written. -/
theorem step_writeReg {s : State} {n : Nat} {w : CmdWord} {rest : List HostMove}
    (h : s.host = .writeReg n w :: rest) :
    step s = match State.hostWriteReg { s with host := rest } n w with
      | .run i t => exec i t
      | .ended o => o := by
  have e : fetch s = State.hostWriteReg { s with host := rest } n w := by
    unfold fetch
    rw [h]
  show (match fetch s with
    | .run i t => exec i t
    | .ended o => o) = _
  rw [e]

/-- A step from a state with a word to be written to `CMD`. -/
theorem step_writeCmd {s : State} {w : CmdWord} {rest : List HostMove} (h : s.host = .writeReg 0 w :: rest) :
    step s = match decode w with
      | .command i => exec i { s with host := rest }
      | .illegal _ => .next (State.raise { s with host := rest } .illegalCommand) := by
  rw [step_writeReg h]
  dsimp only [State.hostWriteReg, registerAt, State.acceptCommand]
  cases decode w <;> rfl

/-- A step that is over when its register write is: no register but `CMD` is written. -/
theorem step_writeReg_ne {s t : State} {n : Nat} {w : CmdWord} {rest : List HostMove}
    (h : s.host = .writeReg n w :: rest) (hs : step s = .next t) : n = 0 := by
  rw [step_writeReg h] at hs
  rcases hostWriteReg_cases { s with host := rest } n w with ⟨hn, -⟩ | ⟨-, -, e⟩ | ⟨-, e⟩
  · exact hn
  · rw [e] at hs; cases hs
  · rw [e] at hs; cases hs

theorem step_writeIbuf {s : State} {k : Nat} {v : Byte} {rest : List HostMove}
    (h : s.host = .writeIbuf k v :: rest) : step s = State.hostWriteIbuf { s with host := rest } k v := by
  unfold step fetch
  rw [h]

theorem step_read {s : State} {p : HostPort} {rest : List HostMove} (h : s.host = .read p :: rest) :
    step s = State.hostRead { s with host := rest } p := by
  unfold step fetch
  rw [h]

theorem step_reset {s : State} {p : PowerOn} {rest : List HostMove} (h : s.host = .reset p :: rest) :
    step s = .next (State.afterReset { s with host := rest } p) := by
  unfold step fetch
  rw [h]

theorem step_idle {s : State} (h : s.host = []) : step s = .next s := by
  unfold step fetch
  rw [h]

/-- A host write of `IBUF` that does not stop: the index exists, and that byte is written. -/
theorem hostWriteIbuf_next {s t : State} {k : Nat} {v : Byte} (h : s.hostWriteIbuf k v = .next t) :
    k < s.maxLen ∧ t = { s with ibuf := s.ibuf.write k v } := by
  unfold State.hostWriteIbuf at h
  split at h
  · exact ⟨‹_›, by cases h; rfl⟩
  · cases h

/-- A host read that does not stop changes `rdata` alone. -/
theorem hostRead_next {s t : State} {p : HostPort} (h : s.hostRead p = .next t) :
    ∃ v, s.portValue p = .next v ∧ t = { s with rdata := some v } := by
  unfold State.hostRead at h
  split at h
  · exact ⟨_, ‹_›, by cases h; rfl⟩
  · cases h
  · cases h

/-- Everything a step that gives a next state can be. -/
theorem step_cases {s t : State} (h : step s = .next t) :
    (∃ w rest i, s.host = .writeReg 0 w :: rest ∧ decode w = .command i ∧
      exec i { s with host := rest } = .next t) ∨
    (∃ w rest e, s.host = .writeReg 0 w :: rest ∧ decode w = .illegal e ∧
      t = State.raise { s with host := rest } .illegalCommand) ∨
    (∃ k v rest, s.host = .writeIbuf k v :: rest ∧ k < s.maxLen ∧
      t = { s with host := rest, ibuf := s.ibuf.write k v }) ∨
    (∃ p rest v, s.host = .read p :: rest ∧ t = { s with host := rest, rdata := some v }) ∨
    (∃ p rest, s.host = .reset p :: rest ∧ t = State.afterReset { s with host := rest } p) ∨
    (s.host = [] ∧ t = s) := by
  cases hh : s.host with
  | nil =>
    rw [step_idle hh] at h
    cases h
    simp
  | cons mv rest =>
    cases mv with
    | writeReg n w =>
      obtain rfl := step_writeReg_ne hh h
      rw [step_writeCmd hh] at h
      cases hd : decode w with
      | command i =>
        rw [hd] at h
        exact .inl ⟨w, rest, i, rfl, hd, h⟩
      | illegal e =>
        rw [hd] at h
        cases h
        exact .inr (.inl ⟨w, rest, e, rfl, hd, rfl⟩)
    | writeIbuf k v =>
      rw [step_writeIbuf hh] at h
      obtain ⟨hk, ht⟩ := hostWriteIbuf_next h
      exact .inr (.inr (.inl ⟨k, v, rest, rfl, hk, ht⟩))
    | read p =>
      rw [step_read hh] at h
      obtain ⟨v, -, ht⟩ := hostRead_next h
      exact .inr (.inr (.inr (.inl ⟨p, rest, v, rfl, ht⟩)))
    | reset p =>
      rw [step_reset hh] at h
      cases h
      exact .inr (.inr (.inr (.inr (.inl ⟨p, rest, rfl, rfl⟩))))

end Sys2Proof.Machine
end

