-- ==== Sys2Proof/Laws/Exec.lean ====
section
/-!
SUPPORT. Everything a command can do, said once: it faults and writes `STATUS`, or it has its own effect.
-/

namespace Sys2Proof.Machine

/-- A command raises a fault, which only a command that tests something can, or it succeeds with its own effect
(R117, R122, R125, R140, R144, R145). -/
theorem exec_cases (i : Instr) (s : State) :
    (∃ F, exec i s = .next (s.raise F) ∧ ∀ f len, i ≠ .seed f len) ∨
    (∃ f len, i = .seed f len ∧ exec i s = .next
      ({ s with gen := s.gen.seed f s.ibuf len, status := statusSetSeeded s.status } : State).succeed) ∨
    (i = .nextw ∧ s.seeded = true ∧ exec i s = .next
      ({ s with gen := s.gen.draw.2, resp := s.gen.draw.1 } : State).succeed) ∨
    (i = .nextc ∧ s.seeded = true ∧ exec i s = .next
      ({ s with gen := s.gen.drawc.2, resp := zext32 s.gen.drawc.1 } : State).succeed) ∨
    (∃ len, i = .vernam len ∧ s.seeded = true ∧ len ≤ s.maxLen ∧
      exec i s = .next (s.runCipher (fun m c => m ^^^ c) len)) ∨
    (∃ mode ch shift modulus start, i = .cshift mode ch shift modulus start ∧ exec i s = .next
      ({ s with resp := zext32 (cshift mode ch shift modulus start) } : State).succeed) ∨
    (∃ mode modulus start len, i = .caesar mode modulus start len ∧ s.seeded = true ∧ len ≤ s.maxLen ∧
      exec i s = .next (s.runCipher (fun m c => cshift mode m c modulus start) len)) := by
  cases i with
  | seed f len => exact .inr (.inl ⟨f, len, rfl, rfl⟩)
  | nextw =>
    by_cases h : s.seeded = true
    · exact .inr (.inr (.inl ⟨rfl, h, by simp [exec, execNextw, h]⟩))
    · exact .inl ⟨.notSeeded, by simp [exec, execNextw, h]⟩
  | nextc =>
    by_cases h : s.seeded = true
    · exact .inr (.inr (.inr (.inl ⟨rfl, h, by simp [exec, execNextc, h]⟩)))
    · exact .inl ⟨.notSeeded, by simp [exec, execNextc, h]⟩
  | vernam len =>
    by_cases h : s.seeded = false
    · exact .inl ⟨.notSeeded, by simp [exec, execVernam, h]⟩
    by_cases hl : s.maxLen < len
    · exact .inl ⟨.inputTooLong, by simp [exec, execVernam, h, hl]⟩
    exact .inr (.inr (.inr (.inr (.inl
      ⟨len, rfl, by simpa using h, by omega, by simp [exec, execVernam, h, hl]⟩))))
  | cshift mode ch shift modulus start =>
    by_cases ha : legalAlphabet modulus start = false
    · exact .inl ⟨.badAlphabet, by simp [exec, execCshift, ha]⟩
    by_cases hc : inAlphabet modulus start ch = false
    · exact .inl ⟨.outOfAlphabet, by simp [exec, execCshift, ha, hc]⟩
    exact .inr (.inr (.inr (.inr (.inr (.inl
      ⟨mode, ch, shift, modulus, start, rfl, by simp [exec, execCshift, ha, hc]⟩)))))
  | caesar mode modulus start len =>
    by_cases h : s.seeded = false
    · exact .inl ⟨.notSeeded, by simp [exec, execCaesar, h]⟩
    by_cases hl : s.maxLen < len
    · exact .inl ⟨.inputTooLong, by simp [exec, execCaesar, h, hl]⟩
    by_cases ha : 0 < len ∧ legalAlphabet modulus start = false
    · exact .inl ⟨.badAlphabet, (if_neg h).trans ((if_neg hl).trans (if_pos ha)), by simp⟩
    by_cases hc : 0 < len ∧ messageInAlphabet s.ibuf modulus start len = false
    · exact .inl ⟨.outOfAlphabet, (if_neg h).trans ((if_neg hl).trans ((if_neg ha).trans (if_pos hc))), by simp⟩
    exact .inr (.inr (.inr (.inr (.inr (.inr
      ⟨mode, modulus, start, len, rfl, by simpa using h, by omega,
        (if_neg h).trans ((if_neg hl).trans ((if_neg ha).trans (if_neg hc)))⟩)))))

end Sys2Proof.Machine
end

