-- ==== Sys2Proof/Laws/PerInstr.lean ====
section
/-!
SUPPORT. Statements for all instructions, one lemma per constructor.
-/

namespace Sys2Proof.Laws.OpcodeField

/-- Bits 63:56 of a command's word are its `OP` value of R83, and its reserved bits 23:19 are 0 (R81). -/
def Statement (i : Instr) : Prop :=
  fieldOp (encode i) = opcodeOf i ∧ (encode i).extractLsb' 19 5 = 0

/-- The word's top byte and reserved bits, whatever the other fields hold (R81). -/
theorem assemble_op (op ch shift modulus start : Byte) (f : Bool) (mode : BitVec 2) (len : Nat) :
    fieldOp (assemble op ch shift modulus start f mode len) = op ∧
    (assemble op ch shift modulus start f mode len).extractLsb' 19 5 = 0 := by
  constructor
  · apply BitVec.eq_of_getLsbD_eq
    intro i hi
    simp only [fieldOp, assemble, BitVec.getLsbD_extractLsb', BitVec.getLsbD_append, hi, decide_true,
      Bool.true_and]
    interval_cases i <;> simp
  · apply BitVec.eq_of_getLsbD_eq
    intro i hi
    simp only [assemble, BitVec.getLsbD_extractLsb', BitVec.getLsbD_append, hi, decide_true, Bool.true_and]
    interval_cases i <;> simp

theorem seed (f : Bool) (len : Nat) : Statement (.seed f len) := assemble_op ..
theorem nextw : Statement .nextw := assemble_op ..
theorem nextc : Statement .nextc := assemble_op ..
theorem vernam (len : Nat) : Statement (.vernam len) := assemble_op ..
theorem cshift (mode : CipherMode) (ch shift modulus start : Byte) :
    Statement (.cshift mode ch shift modulus start) := assemble_op ..
theorem caesar (mode : CipherMode) (modulus start : Byte) (len : Nat) :
    Statement (.caesar mode modulus start len) := assemble_op ..

end Sys2Proof.Laws.OpcodeField
end

