-- ==== Sys2Proof/Tests/Slice0.lean ====
section
/-!
SUPPORT. Tests of the model against numbers from outside it: `spec/30_encoding.md` R91, `spec/40_generator.md` R110,
R114 and R125, `spec/95_test_vectors.md`, and hand calculation; and, for every statement with hypotheses, a concrete
case that meets them together (names `witness_…`).
-/

namespace Sys2Proof.Tests

open Sys2Proof Sys2Proof.Machine

/-! A small machine. -/

/-- `rsl` opens with the five words of the null seed's first batch (95 section 2.1), zeros after. -/
def smallGen : Generator where
  mm := Vector.replicate 256 0
  rsl := Vector.ofFn fun i =>
    if i.val = 0 then 0x9fc09148 else if i.val = 1 then 0xf989e740 else if i.val = 2 then 0x0898e634
    else if i.val = 3 then 0x6e4d10ef else if i.val = 4 then 0xfee2d7e8 else 0
  cursor := 0
  accA := 0
  accB := 0
  accC := 1

/-- A seeded instance with the given `IBUF`. -/
def seeded (ibuf : Memory) : State where
  maxLen := 4096
  gen := smallGen
  ibuf := ibuf
  obuf := []
  status := 1
  resp := 0
  olen := 0
  host := []
  rdata := none

/-- The same before any `SEED`. -/
def unseeded (ibuf : Memory) : State := { seeded ibuf with status := 0 }

/-- The first bytes of a buffer. -/
def bytes (n : Nat) (m : Memory) : List Byte := (List.range n).map m.read

/-- The state a step gives; a step that stops gives nothing. -/
def after (o : Host.Outcome State Fault Refusal) : Option State :=
  match o with
  | .next t => some t
  | .fault _ => none
  | .refused _ => none

/-- ASCII "HELLO". -/
def hello : Memory := [(0, 0x48), (1, 0x45), (2, 0x4C), (3, 0x4C), (4, 0x4F)]

/-! WellFormed: an ill-formed term for each check, which the check refuses (R81: `LEN` has 16 bits). -/

theorem test_illformed_seed_refused :
    (Instr.seed false 65536).wellFormed = false ∧ (Instr.seed true 65535).wellFormed = true := by decide

theorem test_illformed_vernam_refused :
    (Instr.vernam 65536).wellFormed = false ∧ (Instr.vernam 65535).wellFormed = true := by decide

theorem test_illformed_caesar_refused :
    (Instr.caesar .none 0 0 65536).wellFormed = false ∧ (Instr.caesar .none 0 0 65535).wellFormed = true := by
  decide

/-! Decoding, by words written out from R81 to R83 (R91, and 95 section 3.7). Fields are written
OP, CH, SHIFT, MODULUS, START, reserved, F, MODE, LEN. -/

theorem test_decode_seed_bits :
    decode 0b00000001_00000000_00000000_00000000_00000000_00000_1_00_0000000000010101 =
      .command (.seed true 21) := by decide

theorem test_decode_seed_longest : decode 0x010000000004FFFF = .command (.seed true 65535) := by decide

theorem test_decode_nextw_bits :
    decode 0b00000010_00000000_00000000_00000000_00000000_00000_0_00_0000000000000000 =
      .command .nextw := by decide

theorem test_decode_nextc_bits :
    decode 0b00000011_00000000_00000000_00000000_00000000_00000_0_00_0000000000000000 =
      .command .nextc := by decide

theorem test_decode_vernam_bits :
    decode 0b00000100_00000000_00000000_00000000_00000000_00000_0_00_0000000000010011 =
      .command (.vernam 19) := by decide

theorem test_decode_cshift_bits :
    decode 0b00000101_01100001_00101000_01011111_00100000_00000_0_01_0000000000000000 =
      .command (.cshift .encipher 97 40 95 32) := by decide

theorem test_decode_caesar_bits :
    decode 0b00000110_00000000_00000000_01011111_00100000_00000_0_10_0000000000010011 =
      .command (.caesar .decipher 95 32 19) := by decide

theorem test_encode_worked_words :
    encode (.seed true 21) = 0x0100000000040015 ∧ encode .nextw = 0x0200000000000000 ∧
    encode .nextc = 0x0300000000000000 ∧ encode (.vernam 19) = 0x0400000000000013 ∧
    encode (.cshift .encipher 97 40 95 32) = 0x0561285F20010000 ∧
    encode (.caesar .decipher 95 32 19) = 0x0600005F20020013 := by decide

theorem test_illegal_words :
    [0x0000000000000000, 0xFFFFFFFFFFFFFFFF, 0x0700000000000000].map decode =
      List.replicate 3 (.illegal .unknownOpcode) ∧
    [0x0200000000000001, 0x0100000000080000, 0x0100000000010000, 0x0400000000040003, 0x0541011A41010001,
      0x0601001A41010001].map decode = List.replicate 6 (.illegal .nonzeroUnused) ∧
    decode 0x0541011A41030000 = .illegal .reservedMode := by decide

theorem test_table_word :
    decodeTableWord 64 0x0200000000000000 = some .nextw ∧ decodeTableWord 64 0x0700000000000000 = none := by
  decide

/-! The Generator. -/

/-- R110's worked example and 95 section 3.2. -/
theorem test_mix_worked :
    mix ⟨golden, golden, golden, golden, golden, golden, golden, golden⟩ =
      ⟨0x3f879d38, 0x0e56dea4, 0x616a0f84, 0x7e4c685d, 0x41d767b9, 0x0b360cdb, 0xf273b188, 0x11273859⟩ := by
  decide

/-- R114: position 0 of the null seed's first batch, on the words of `mm` it names. -/
theorem test_batch_position_zero :
    let q : Generator :=
      { smallGen with
        mm := Vector.ofFn fun i =>
          if i.val = 0 then 0x06cca0e5 else if i.val = 128 then 0x902088e7 else if i.val = 57 then 0x3352391b
          else if i.val = 176 then 0x98f3f063 else 0
        accB := 1 }
    (q.batchPosition 0).accA = 0x902088e7 ∧ (q.batchPosition 0).mm[0] = 0xc372c203 ∧
    (q.batchPosition 0).accB = 0x9fc09148 ∧ (q.batchPosition 0).rsl[0] = 0x9fc09148 := by
  decide +kernel

/-- R114: position 1, with the right shift by 6. -/
theorem test_batch_position_one :
    let q : Generator :=
      { smallGen with
        mm := Vector.ofFn fun i =>
          if i.val = 1 then 0x7bcc7892 else if i.val = 129 then 0xb280fb64 else if i.val = 36 then 0x082c01b2
          else if i.val = 102 then 0x7dbd6eae else 0
        accA := 0x902088e7
        accB := 0x9fc09148 }
    (q.batchPosition 1).accA = 0x44e10628 ∧ (q.batchPosition 1).mm[1] = 0xeccd9922 ∧
    (q.batchPosition 1).rsl[1] = 0xf989e740 := by
  decide +kernel

/-- 95 section 3.1 row 1: the null seed's first word. -/
theorem test_seed_null :
    (after (exec (.seed false 0) (unseeded []))).map (fun t => (t.gen.rsl[0], t.status, t.gen.cursor)) =
      some (0x9fc09148, 1, 0) := by
  decide +kernel

/-- 95 section 3.1 row 11: a seed byte at 0x80, which a sign extension would change. -/
theorem test_seed_byte_zero_extended :
    (after (exec (.seed true 1) (unseeded [(0, 0x80)]))).map (fun t => t.gen.rsl[0]) = some 0x491b2dc9 := by
  decide +kernel

/-- 95 section 3.3 row 1. -/
theorem test_nextw_first :
    (after (exec .nextw (seeded []))).map (fun t => (t.resp, t.gen.cursor, t.status)) =
      some (0x9fc09148, 1, 1) := by
  decide +kernel

/-- R121: the draw at `cursor = 255` returns `rsl[255]`, then runs `BATCH` and leaves `cursor = 0`. -/
theorem test_nextw_refills_after_the_read :
    (after (exec .nextw { seeded [] with gen := { smallGen with
      rsl := Vector.replicate 256 7, cursor := 255 } })).map (fun t => (t.resp, t.gen.cursor, t.gen.accC)) =
      some (7, 0, 2) := by
  decide +kernel

/-- R125: the word `0x9fc09148` gives 100, `0xFFFFFFFF` 37, `0x0000005e` 126, `0x80000000` 35. -/
theorem test_nextc_characters :
    (after (exec .nextc (seeded []))).map (fun t => t.resp) = some 100 ∧
    [0xFFFFFFFF, 0x0000005e, 0x0000005f, 0x80000000].map printable = [37, 126, 32, 35] := by
  decide +kernel

/-- 95 section 3.3 row 4. -/
theorem test_nextc_unseeded :
    (after (exec .nextc (unseeded []))).map (fun t => (t.status, t.resp)) = some (0x00000202, 0) := by
  decide +kernel

/-! The ciphers. -/

/-- 95 section 3.4 row 2. -/
theorem test_vernam_bytes :
    (after (exec (.vernam 5) (seeded [(1, 0x64), (2, 0xFF), (3, 0x80), (4, 0x2B)]))).map
      (fun t => (bytes 6 t.obuf, t.olen, t.gen.cursor)) =
      some ([0x64, 0x4F, 0xD3, 0xC5, 0x09, 0x00], 5, 5) := by
  decide +kernel

/-- 95 section 3.4 row 5. -/
theorem test_vernam_too_long :
    (after (exec (.vernam 4097) (seeded hello))).map (fun t => (t.status, t.gen.cursor, t.olen)) =
      some (0x00000303, 0, 0) := by
  decide +kernel

/-- 95 section 3.5, rows 1 to 13 but for the mode and the wrap cases they share. -/
theorem test_cshift_values :
    [cshift .encipher 97 40 95 32, cshift .decipher 42 40 95 32, cshift .encipher 126 126 95 32,
      cshift .decipher 32 126 95 32, cshift .none 65 3 26 65, cshift .encipher 90 1 26 65,
      cshift .decipher 65 1 26 65, cshift .encipher 65 255 26 65, cshift .decipher 65 255 26 65,
      cshift .decipher 90 52 26 65, cshift .encipher 200 100 56 200, cshift .encipher 5 0 1 5] =
      [42, 97, 62, 96, 68, 65, 90, 86, 70, 90, 244, 5] := by
  decide

/-- 95 section 3.5 rows 13 to 18, before any seed. -/
theorem test_cshift_faults :
    [Instr.cshift .encipher 90 3 26 65, .cshift .encipher 97 3 26 65, .cshift .encipher 91 3 26 65,
      .cshift .encipher 64 3 26 65, .cshift .encipher 65 3 0 65, .cshift .encipher 200 1 57 200].map
      (fun i => (after (exec i (unseeded []))).map fun t => (t.err, t.resp)) =
      [some (0, 67), some (5, 0), some (5, 0), some (5, 0), some (4, 0), some (4, 0)] := by
  decide +kernel

/-- 95 section 3.6 row 1: "HELLO" becomes "DVDCW". -/
theorem test_caesar_hello :
    (after (exec (.caesar .encipher 26 65 5) (seeded hello))).map (fun t => (bytes 6 t.obuf, t.olen)) =
      some ([0x44, 0x56, 0x44, 0x43, 0x57, 0x00], 5) := by
  decide +kernel

/-- 95 section 3.6 rows 4 and 6 to 9: an empty message, a bad character, bad alphabets, priority. -/
theorem test_caesar_checks :
    [Instr.caesar .encipher 0 65 0, .caesar .encipher 26 70 5, .caesar .encipher 0 65 1,
      .caesar .encipher 100 200 1, .caesar .encipher 26 70 4097].map
      (fun i => (after (exec i (seeded hello))).map fun t => (t.err, t.gen.cursor, t.obuf)) =
      [some (0, 0, []), some (5, 0, []), some (4, 0, []), some (4, 0, []), some (3, 0, [])] := by
  decide +kernel

/-! The step and the host. -/

/-- 95 section 3.8 rows 1 and 4, from reset. -/
theorem test_first_command_faults :
    (after (step (State.reset.withFetchWord 64 0x0200000000000000))).map (fun t => (t.status, t.host)) =
      some (0x00000202, []) ∧
    (after (step (State.reset.withFetchWord 64 0))).map (fun t => (t.status, t.resp)) =
      some (0x00000102, 0) := by
  decide +kernel

/-- A host write is read back; the first index that does not exist stops the step. -/
theorem test_host_writes_ibuf :
    (after (step { seeded hello with host := [.writeIbuf 1 0x65] })).map (fun t => bytes 5 t.ibuf) =
      some [0x48, 0x65, 0x4C, 0x4C, 0x4F] ∧
    step { seeded hello with host := [.writeIbuf 4096 1] } = .fault .noSuchElement := by
  constructor
  · decide +kernel
  · rfl

/-- The register numbers of R58: `STATUS` is 1, `RESP` 2, `OLEN` 3; a word goes to `CMD` at number 0. -/
theorem test_register_numbers :
    ([1, 2, 3].map fun n => (after (step { seeded [] with
      host := [.read (.reg n)], status := 0x0101, resp := 0x22, olen := 0x33 })).map fun t => t.rdata) =
      [some (some 0x0101), some (some 0x22), some (some 0x33)] ∧
    (after (step { unseeded [] with host := [.writeReg 0 0] })).map (fun t => t.status) = some 0x0102 ∧
    step { unseeded [] with host := [.writeReg 1 0] } = .refused .noSuchMove := by
  refine ⟨by decide +kernel, by decide +kernel, rfl⟩

/-- The canonical form: writing what an unlisted byte reads as removes the entry. -/
theorem test_memory_canonical :
    Memory.write hello 2 0 = [(0, 0x48), (1, 0x45), (3, 0x4C), (4, 0x4F)] ∧
    Memory.write [(3, 1)] 1 7 = [(1, 7), (3, 1)] ∧ Memory.write hello 4 9 =
      [(0, 0x48), (1, 0x45), (2, 0x4C), (3, 0x4C), (4, 9)] := by
  decide

/-! Witnesses: for each statement with hypotheses, a case that meets them. -/

theorem witness_DecodeOfEncodeIsIdentity : (Instr.caesar .decipher 255 255 65535).wellFormed = true := by decide

theorem witness_EncodeOfDecodeIsIdentity : decode 0x0400000000000013 = .command (.vernam 19) := by decide

/-- A word for each row and each mode, the reserved one included. -/
theorem witness_TableRowSelectsItsCommand :
    (0x010000000004FFFF : CmdWord) &&& 0xFFFFFFFFFFFB0000 = 0x0100000000000000 ∧
    (0x0200000000000000 : CmdWord) &&& 0xFFFFFFFFFFFFFFFF = 0x0200000000000000 ∧
    (0x0300000000000000 : CmdWord) &&& 0xFFFFFFFFFFFFFFFF = 0x0300000000000000 ∧
    (0x040000000000FFFF : CmdWord) &&& 0xFFFFFFFFFFFF0000 = 0x0400000000000000 ∧
    [0x05FFFFFFFF000000, 0x05FFFFFFFF010000, 0x05FFFFFFFF020000, 0x05FFFFFFFF030000].map
      (fun w : CmdWord => (w &&& 0xFF00000000FCFFFF, w.extractLsb' 16 2)) =
      [(0x0500000000000000, 0), (0x0500000000000000, 1), (0x0500000000000000, 2), (0x0500000000000000, 3)] ∧
    [0x060000FFFF00FFFF, 0x060000FFFF01FFFF, 0x060000FFFF02FFFF, 0x060000FFFF03FFFF].map
      (fun w : CmdWord => (w &&& 0xFFFFFF0000FC0000, w.extractLsb' 16 2)) =
      [(0x0600000000000000, 0), (0x0600000000000000, 1), (0x0600000000000000, 2), (0x0600000000000000, 3)] := by
  decide

/-- A word no row selects, one selected but for `MODE = 3`; the first is an illegal word to execute. -/
theorem witness_UnselectedWordIsIllegal :
    [0x0700000000000000, 0x0541011A41030000].map (fun w : CmdWord =>
      decide (w &&& 0xFFFFFFFFFFFB0000 ≠ 0x0100000000000000 ∧ w ≠ 0x0200000000000000 ∧
        w ≠ 0x0300000000000000 ∧ w &&& 0xFFFFFFFFFFFF0000 ≠ 0x0400000000000000 ∧
        (w &&& 0xFF00000000FCFFFF ≠ 0x0500000000000000 ∨ w.extractLsb' 16 2 = 3) ∧
        (w &&& 0xFFFFFF0000FC0000 ≠ 0x0600000000000000 ∨ w.extractLsb' 16 2 = 3))) = [true, true] ∧
    decode 0x0700000000000000 = .illegal .unknownOpcode := by
  decide

theorem witness_StepRunsDecodedCommand :
    ({ unseeded [] with host := [.writeReg 0 0x0200000000000000] } : State).host =
      .writeReg 0 0x0200000000000000 :: [] ∧ decode 0x0200000000000000 = .command .nextw ∧
    ({ unseeded [] with host := [.writeReg 0 0x0700000000000000] } : State).host =
      .writeReg 0 0x0700000000000000 :: [] ∧ decode 0x0700000000000000 = .illegal .unknownOpcode :=
  ⟨rfl, by decide, rfl, by decide⟩

/-- Each kind of host move, at the last index that exists and the first that does not, and no move. -/
theorem witness_HostAccessesTouchOneByteOrNothing :
    ({ seeded [] with host := [.writeIbuf 4095 1] } : State).host = .writeIbuf 4095 1 :: [] ∧
    4095 < (seeded []).maxLen ∧ (seeded []).maxLen ≤ 4096 ∧
    ({ seeded [] with host := [.writeIbuf 4096 1] } : State).host = .writeIbuf 4096 1 :: [] ∧
    ({ seeded [] with host := [.read (.reg 1)] } : State).host = .read (.reg 1) :: [] ∧
    ({ seeded [] with host := [.read (.reg 2)] } : State).host = .read (.reg 2) :: [] ∧
    ({ seeded [] with host := [.read (.reg 3)] } : State).host = .read (.reg 3) :: [] ∧
    ({ seeded [] with host := [.read (.reg 0)] } : State).host = .read (.reg 0) :: [] ∧
    ({ seeded [] with host := [.read (.reg 4)] } : State).host = .read (.reg 4) :: [] ∧
    ({ seeded [] with host := [.writeReg 1 7] } : State).host = .writeReg 1 7 :: [] ∧
    ({ seeded [] with host := [.writeReg 3 7] } : State).host = .writeReg 3 7 :: [] ∧
    ({ seeded [] with host := [.writeReg 4 7] } : State).host = .writeReg 4 7 :: [] ∧
    ({ seeded [] with host := [.read (.ibuf 4095)] } : State).host = .read (.ibuf 4095) :: [] ∧
    ({ seeded [] with host := [.read (.ibuf 4096)] } : State).host = .read (.ibuf 4096) :: [] ∧
    ({ seeded [] with host := [.read (.obuf 4095)] } : State).host = .read (.obuf 4095) :: [] ∧
    ({ seeded [] with host := [.read (.obuf 4096)] } : State).host = .read (.obuf 4096) :: [] ∧
    (seeded []).host = [] :=
  ⟨rfl, by decide, by decide, rfl, rfl, rfl, rfl, rfl, rfl, rfl, rfl, rfl, rfl, rfl, rfl, rfl, rfl⟩

/-- A `RESET` of a seeded instance whose last buffer bytes come as 9 and 8, and a command with the cause its inner
clause asks for. -/
theorem witness_ResetEventUnseeds :
    ({ seeded hello with host := [.reset ⟨smallGen, [(4095, 9)], [(4095, 8)]⟩] } : State).host =
      .reset ⟨smallGen, [(4095, 9)], [(4095, 8)]⟩ :: [] ∧
    4095 < (seeded hello).maxLen ∧ (∀ c ∈ ([] : List Host.Cell), c.1 ≠ 4095) ∧
    [(4095, 9)] = ([] : List Host.Cell) ++ (4095, 9) :: [] ∧
    [(4095, 8)] = ([] : List Host.Cell) ++ (4095, 8) :: [] ∧
    CauseNotSeeded (.vernam 0) (unseeded []) :=
  ⟨rfl, by decide, by simp, rfl, rfl, rfl⟩

/-- A seeded state that meets the invariant and steps. -/
theorem witness_EveryStepKeepsTheInvariant :
    ({ seeded hello with host := [.read (.reg 1)] } : State).Inv ∧
    step { seeded hello with host := [.read (.reg 1)] } = .next { seeded hello with rdata := some 1 } := by
  constructor
  · decide +kernel
  · rfl

/-- Steps that are not `RESET`: a `SEED`, a faulting command, and a host read. -/
theorem witness_StatusFieldsHaveTheirWriters :
    (∃ t, step { seeded [] with host := [.writeReg 0 0x0100000000000000] } = .next t) ∧
    decode 0x0100000000000000 = .command (.seed false 0) ∧
    (seeded []).seeded = true ∧ (State.raise (seeded []) .badAlphabet).flt = true ∧
    (∃ t, step { unseeded [] with host := [.writeReg 0 0x0200000000000000] } = .next t) ∧
    step { seeded [] with host := [.read (.reg 2)] } = .next { seeded [] with rdata := some 0 } ∧
    (∀ p rest, ({ seeded [] with host := [.read (.reg 2)] } : State).host ≠ .reset p :: rest) ∧
    (∀ w rest, ({ seeded [] with host := [.read (.reg 2)] } : State).host ≠ .writeReg 0 w :: rest) :=
  ⟨⟨_, rfl⟩, by decide, by decide, by decide, ⟨_, rfl⟩, rfl, by simp, by simp⟩

/-- A case for each cause, at its boundary, and one with none. -/
theorem witness_FirstCauseIsReported :
    decode 0xFFFFFFFFFFFFFFFF = .illegal .unknownOpcode ∧
    CauseNotSeeded (.caesar .none 0 0 0) (unseeded []) ∧
    (¬ CauseNotSeeded (.vernam 4097) (seeded []) ∧ CauseInputTooLong (.vernam 4097) (seeded [])) ∧
    (¬ CauseNotSeeded (.cshift .none 200 0 57 200) (seeded []) ∧
      ¬ CauseInputTooLong (.cshift .none 200 0 57 200) (seeded []) ∧
      CauseBadAlphabet (.cshift .none 200 0 57 200)) ∧
    (¬ CauseNotSeeded (.cshift .none 91 0 26 65) (seeded []) ∧
      ¬ CauseInputTooLong (.cshift .none 91 0 26 65) (seeded []) ∧
      ¬ CauseBadAlphabet (.cshift .none 91 0 26 65) ∧
      CauseOutOfAlphabet (.cshift .none 91 0 26 65) (seeded [])) ∧
    NoCause (.cshift .none 200 0 56 200) (seeded []) := by
  simp only [CauseNotSeeded, CauseInputTooLong, CauseBadAlphabet, CauseOutOfAlphabet, NoCause,
    BadAlphabetOperands, OutsideAlphabet]
  decide

theorem witness_FaultWritesStatusOnly :
    (after (exec .nextw (unseeded []))).map (fun t => decide (t.err ≠ 0)) = some true ∧
    (after (exec .nextw (seeded []))).map (fun t => decide (t.err = 0)) = some true := by
  decide +kernel

theorem witness_DrawBeforeSeedFaults : (unseeded []).seeded = false := by decide

theorem witness_OverlongMessageFaults : (seeded []).seeded = true ∧ (seeded []).maxLen < 4097 := by decide

/-- `cursor` at 255 and below it, and an unseeded state. -/
theorem witness_NextwResult :
    (unseeded []).seeded = false ∧ (seeded []).seeded = true ∧ (seeded []).gen.cursor.val ≠ 255 ∧
    ({ seeded [] with gen := { smallGen with cursor := 255 } } : State).gen.cursor.val = 255 := by
  decide

theorem witness_NextcResult : (seeded []).seeded = true ∧ (unseeded []).seeded = false := by decide

/-- The longest message that is accepted, the empty one, the shortest that is too long, and an unseeded state. -/
theorem witness_VernamResult :
    (seeded hello).seeded = true ∧ 4096 ≤ (seeded hello).maxLen ∧ 0 ≤ (seeded hello).maxLen ∧
    (seeded hello).maxLen < 4097 ∧ (unseeded hello).seeded = false := by decide

theorem witness_VernamKeepsBitSeven : (seeded hello).seeded = true ∧ 5 ≤ (seeded hello).maxLen := by decide

/-- The alphabet that ends at 255 with its last character, with a nonnegative and a negative remainder; the first
alphabets and characters that are refused. -/
theorem witness_CshiftResult :
    ¬ BadAlphabetOperands 56 200 ∧ ¬ OutsideAlphabet 56 200 255 ∧
    ¬ BadAlphabetOperands 26 65 ∧ ¬ OutsideAlphabet 26 65 65 ∧
    0 ≤ (55 + 255 : Int).tmod 56 ∧ (0 - 1 : Int).tmod 26 < 0 ∧
    BadAlphabetOperands 57 200 ∧ BadAlphabetOperands 0 65 ∧ OutsideAlphabet 26 65 91 ∧
    OutsideAlphabet 26 65 64 := by
  simp only [BadAlphabetOperands, OutsideAlphabet]
  decide

theorem witness_CshiftIsFlooredRemainder : ¬ BadAlphabetOperands 1 5 ∧ ¬ OutsideAlphabet 1 5 5 := by
  simp only [BadAlphabetOperands, OutsideAlphabet]
  decide

theorem witness_CshiftModesAreInverse : ¬ BadAlphabetOperands 95 32 ∧ ¬ OutsideAlphabet 95 32 126 := by
  simp only [BadAlphabetOperands, OutsideAlphabet]
  decide

/-- "HELLO" in its alphabet, the empty message with `MODULUS = 0`, and a case for each of the four faults. -/
theorem witness_CaesarResult :
    (seeded hello).seeded = true ∧ 5 ≤ (seeded hello).maxLen ∧ ¬ BadAlphabetOperands 26 65 ∧
    (∀ k, k < 5 → ¬ OutsideAlphabet 26 65 ((seeded hello).ibuf.read k)) ∧
    ((0 < 0 → ¬ BadAlphabetOperands 0 65) ∧
      ∀ k, k < 0 → ¬ OutsideAlphabet 0 65 ((seeded hello).ibuf.read k)) ∧
    (unseeded hello).seeded = false ∧ (seeded hello).maxLen < 4097 ∧ 0 < 5 ∧ BadAlphabetOperands 0 65 ∧
    ¬ BadAlphabetOperands 26 70 ∧ (1 < 5 ∧ OutsideAlphabet 26 70 ((seeded hello).ibuf.read 1)) := by
  simp only [BadAlphabetOperands, OutsideAlphabet]
  decide

theorem witness_EmptyMessageDrawsNothing : (seeded hello).seeded = true := by decide

/-- Each command answers a next state, so that its frame says something. -/
theorem witness_EachCommandHasItsFrame :
    (∃ t, exec (.seed true 5) (seeded hello) = .next t) ∧ (∃ t, exec .nextw (seeded hello) = .next t) ∧
    (∃ t, exec .nextc (seeded hello) = .next t) ∧ (∃ t, exec (.vernam 5) (seeded hello) = .next t) ∧
    (∃ t, exec (.cshift .encipher 65 3 26 65) (seeded hello) = .next t) ∧
    (∃ t, exec (.caesar .encipher 26 65 5) (seeded hello) = .next t) :=
  ⟨⟨_, rfl⟩, ⟨_, rfl⟩, ⟨_, rfl⟩, ⟨_, rfl⟩, ⟨_, rfl⟩, ⟨_, rfl⟩⟩

/-- Two states with different Generators, the same first two bytes and different later ones. -/
theorem witness_SeedForgetsTheGenerator :
    (∀ k, k < min 2 256 → (seeded hello).ibuf.read k =
      ({ unseeded [(0, 0x48), (1, 0x45)] with gen := { smallGen with accA := 5 } } : State).ibuf.read k) := by
  decide

/-- The bytes of "HE" and of "HE" with two zero bytes after; a seed longer than 256 bytes. -/
theorem witness_SeedLengthCorners :
    (2 ≤ 4 ∧ 4 ≤ 256 ∧ (∀ k, k < 2 → (seeded hello).ibuf.read k = (seeded [(0, 0x48), (1, 0x45)]).ibuf.read k) ∧
      (∀ k, 2 ≤ k → k < 4 → (seeded [(0, 0x48), (1, 0x45)]).ibuf.read k = 0)) ∧
    (256 ≤ 300 ∧ ∀ k, k < 256 → (seeded hello).ibuf.read k = (unseeded hello).ibuf.read k) :=
  ⟨by decide, by decide, fun _ _ => rfl⟩

theorem witness_SeededAlikeRunAlike :
    (seeded hello).maxLen = (unseeded hello).maxLen ∧
    (∀ k, k < min 5 256 → (seeded hello).ibuf.read k = (unseeded hello).ibuf.read k) ∧
    [(hello, Instr.vernam 5), ([], Instr.nextw)] = [(hello, Instr.vernam 5)] ++ [([], Instr.nextw)] :=
  ⟨rfl, fun _ _ => rfl, rfl⟩

/-- Both last clauses: a draw inside the first batch, and the 257th. -/
theorem witness_BatchBoundary : (255 : Nat) < 256 ∧ (256 : Nat) = 256 := by decide

/-- A command other than `SEED`, in a state where it succeeds and in one where it faults. -/
theorem witness_DrawAccounting :
    (∀ f len, Instr.vernam 5 ≠ .seed f len) ∧
    (after (exec (.vernam 5) (seeded hello))).map (fun t => t.err) = some 0 ∧
    (after (exec (.vernam 5) (unseeded hello))).map (fun t => t.err) = some 2 :=
  ⟨by simp, by decide +kernel, by decide +kernel⟩

theorem witness_VernamRoundTrip :
    5 ≤ (seeded hello).maxLen ∧ 5 ≤ (unseeded hello).maxLen ∧
    (∀ k, k < min 3 256 → (seeded hello).ibuf.read k = (unseeded hello).ibuf.read k) :=
  ⟨by decide, by decide, fun _ _ => rfl⟩

theorem witness_CaesarRoundTrip :
    CipherMode.none ≠ .decipher ∧ CipherMode.encipher ≠ .decipher ∧ 5 ≤ (seeded hello).maxLen ∧
    5 ≤ (unseeded hello).maxLen ∧ ¬ BadAlphabetOperands 26 65 ∧
    (∀ k, k < 5 → ¬ OutsideAlphabet 26 65 (Memory.read hello k)) ∧
    (∀ k, k < min 3 256 → (seeded hello).ibuf.read k = (unseeded hello).ibuf.read k) := by
  simp only [BadAlphabetOperands, OutsideAlphabet]
  decide

/-- "HELLO" split as "HE" and "LLO". -/
theorem witness_SplitMessageGivesTheSameOutput :
    (seeded []).seeded = true ∧ 2 + 3 ≤ (seeded []).maxLen ∧
    (∀ k, k < 3 → Memory.read [(0, 0x4C), (1, 0x4C), (2, 0x4F)] k = Memory.read hello (2 + k)) ∧
    ¬ BadAlphabetOperands 26 65 ∧ (∀ k, k < 2 + 3 → ¬ OutsideAlphabet 26 65 (Memory.read hello k)) := by
  simp only [BadAlphabetOperands, OutsideAlphabet]
  decide

/-- A `CSHIFT` that changes `RESP`. -/
theorem witness_RespHasItsWriters :
    (after (step { unseeded [] with host := [.writeReg 0 0x0541031A41010000] })).map
      (fun t => decide (t.resp ≠ (unseeded []).resp)) = some true := by
  decide +kernel

/-- A `VERNAM` that changes `OBUF` and `OLEN`. -/
theorem witness_OutputHasItsWriters :
    (after (step { seeded hello with host := [.writeReg 0 0x0400000000000005] })).map
      (fun t => decide (t.obuf ≠ (seeded hello).obuf ∧ t.olen ≠ (seeded hello).olen)) = some true := by
  decide +kernel

/-- A `NEXTW` that changes the Generator. -/
theorem witness_GeneratorHasItsWriters :
    (after (step { seeded [] with host := [.writeReg 0 0x0200000000000000] })).map
      (fun t => decide (t.gen.cursor ≠ (seeded []).gen.cursor)) = some true := by
  decide +kernel

/-- An unseeded state that steps to a seeded one, one that stops, and one that refuses. -/
theorem witness_UnseededGeneratorIsUnobservable :
    (unseeded []).seeded = false ∧
    (after (step { unseeded [] with host := [.writeReg 0 0x0100000000000000] })).map (fun t => t.seeded) =
      some true ∧
    step { unseeded [] with host := [.read (.obuf 4096)] } = .fault .noSuchElement ∧
    step { unseeded [] with host := [.read (.reg 0)] } = .refused .noSuchMove :=
  ⟨by decide, by decide +kernel, rfl, rfl⟩

/-- A buffer that differs only in a byte the command does not read. -/
theorem witness_UnreadInputBytesDoNotMatter :
    ∀ k, k < bytesRead (.vernam 4) → Memory.read [(0, 0x48), (1, 0x45), (2, 0x4C), (3, 0x4C), (4, 1)] k =
      (seeded hello).ibuf.read k := by
  decide

/-- Twins that differ in `RESP`, in `OBUF` and in a byte of `IBUF` the command does not read; each kind of command
succeeds on one of them. -/
theorem witness_EveryCommandKeepsTwinsEqual :
    (seeded hello).gen = ({ seeded [] with resp := 7 } : State).gen ∧
    (seeded hello).seeded = ({ seeded [] with resp := 7 } : State).seeded ∧
    (seeded hello).maxLen = ({ seeded [] with resp := 7 } : State).maxLen ∧
    (∀ k, k < bytesRead (.vernam 4) → (seeded hello).ibuf.read k =
      ({ seeded [(0, 0x48), (1, 0x45), (2, 0x4C), (3, 0x4C), (4, 1)] with obuf := hello } : State).ibuf.read k) ∧
    ([Instr.nextw, .nextc, .cshift .none 65 3 26 65, .vernam 4, .caesar .none 26 65 4].map fun i =>
      (after (exec i (seeded hello))).map fun t => t.err) = [some 0, some 0, some 0, some 0, some 0] :=
  ⟨rfl, by decide, rfl, by decide, by decide +kernel⟩

end Sys2Proof.Tests
end

/-!
PROOFS. The decoder seen through the opcode table: what each row selects, what no row selects, and
what executing an illegal word does (`30_encoding.md` R84 to R86, `60_exceptions.md` R181).
-/

namespace Sys2Proof

/-! The rows of the table (R84). -/

theorem OpcodeRow.selects_iff {r : OpcodeRow} {w : CmdWord} : r.selects w = true ↔ w &&& r.mask = r.pattern :=
  beq_iff_eq

theorem OpcodeRow.not_selects_iff {r : OpcodeRow} {w : CmdWord} :
    r.selects w = false ↔ w &&& r.mask ≠ r.pattern :=
  beq_eq_false_iff_ne

/-- A row whose mask fixes every bit selects its pattern alone (`NEXTW`, `NEXTC`). -/
theorem OpcodeRow.not_selects_iff_of_full_mask {r : OpcodeRow} {w : CmdWord}
    (hmask : r.mask = BitVec.allOnes 64) : r.selects w = false ↔ w ≠ r.pattern := by
  rw [OpcodeRow.not_selects_iff, hmask, BitVec.and_allOnes]

/-- The row that selects a word is the only one of the table to do so. -/
theorem OpcodeRow.not_selects_of_other {a b : OpcodeRow} {w : CmdWord} (hb : b.selects w = true)
    (ha_mem : a ∈ opcodeRows) (hb_mem : b ∈ opcodeRows) (hne : b ≠ a) : a.selects w = false := by
  have excludes : opcodeRows.Pairwise fun a b => a.selects w = true → b.selects w = false :=
    opcodeRows_disjoint.imp OpcodeRow.not_selects_of_disjoint
  have symmetric : Std.Symm fun a b : OpcodeRow => a.selects w = true → b.selects w = false :=
    ⟨fun _ _ hab hb => Bool.eq_false_iff.mpr fun ha => Bool.eq_false_iff.mp (hab ha) hb⟩
  exact excludes.forall hb_mem ha_mem hne hb

/-! `MODE` (R85). -/

theorem modeOfField_eq_none_iff {b : BitVec 2} : modeOfField b = none ↔ b = 3 := by
  revert b
  decide

/-! What the decoder answers for a word a row selects, one lemma per row and per kind of `MODE`. -/

section
variable {w : CmdWord}

theorem decode_of_rowSeed (h : rowSeed.selects w = true) :
    decode w = .command (.seed (fieldF w) (fieldLen w)) := by
  simp only [decode, h, if_true]

theorem decode_of_rowNextw (h : rowNextw.selects w = true) : decode w = .command .nextw := by
  simp (disch := decide) [decode, h, OpcodeRow.not_selects_of_other h]

theorem decode_of_rowNextc (h : rowNextc.selects w = true) : decode w = .command .nextc := by
  simp (disch := decide) [decode, h, OpcodeRow.not_selects_of_other h]

theorem decode_of_rowVernam (h : rowVernam.selects w = true) :
    decode w = .command (.vernam (fieldLen w)) := by
  simp (disch := decide) [decode, h, OpcodeRow.not_selects_of_other h]

theorem decode_of_rowCshift {m : CipherMode} (h : rowCshift.selects w = true)
    (hm : modeOfField (fieldMode w) = some m) :
    decode w = .command (.cshift m (fieldCh w) (fieldShift w) (fieldModulus w) (fieldStart w)) := by
  simp (disch := decide) [decode, h, hm, OpcodeRow.not_selects_of_other h]

theorem decode_of_rowCaesar {m : CipherMode} (h : rowCaesar.selects w = true)
    (hm : modeOfField (fieldMode w) = some m) :
    decode w = .command (.caesar m (fieldModulus w) (fieldStart w) (fieldLen w)) := by
  simp (disch := decide) [decode, h, hm, OpcodeRow.not_selects_of_other h]

/-- `MODE = 3` is illegal in either row that has the field (R85). -/
theorem decode_of_reservedMode (h : rowCshift.selects w = true ∨ rowCaesar.selects w = true)
    (hm : fieldMode w = 3) : decode w = .illegal .reservedMode := by
  have hnone : modeOfField (fieldMode w) = none := modeOfField_eq_none_iff.mpr hm
  obtain h | h := h
  · simp (disch := decide) [decode, h, hnone, OpcodeRow.not_selects_of_other h]
  · simp (disch := decide) [decode, h, hnone, OpcodeRow.not_selects_of_other h]

theorem decode_of_no_row (h : ∀ r ∈ opcodeRows, r.selects w = false) : ∃ e, decode w = .illegal e := by
  simp (disch := decide) only [decode, h, Bool.false_eq_true, if_false]
  split
  · exact ⟨.nonzeroUnused, rfl⟩
  · exact ⟨.unknownOpcode, rfl⟩

end

end Sys2Proof

namespace Sys2Proof.Machine

/-- A raised fault is the fault of its code, and `STATUS` is all it writes (R190). -/
theorem faultedWith_raise (s : State) (F : CommandFault) : FaultedWith F.code s (s.raise F) :=
  ⟨by simp, by simp, by simp, by simp, rfl⟩

/-- An illegal word written to `CMD` raises `IllegalCommand` (R181). -/
theorem acceptCommand_of_illegal {w : CmdWord} {e : Illegal} (s : State) (h : decode w = .illegal e) :
    s.acceptCommand w = .ended (.next (s.raise .illegalCommand)) := by
  simp only [State.acceptCommand, h]

end Sys2Proof.Machine

namespace Sys2Proof

/-- Settles O3: each clause's mask and match are a row's, and that row's decoding lemma gives the answer, for a
`MODE` below 3 with the mode the field names. -/
theorem tableRowSelectsItsCommand : Obligations.TableRowSelectsItsCommand := by
  intro w
  refine ⟨fun h => decode_of_rowSeed (OpcodeRow.selects_iff.mpr h),
    fun h => decode_of_rowNextw (OpcodeRow.selects_iff.mpr h),
    fun h => decode_of_rowNextc (OpcodeRow.selects_iff.mpr h),
    fun h => decode_of_rowVernam (OpcodeRow.selects_iff.mpr h), fun h => ?_, fun h => ?_⟩
  · have hrow : rowCshift.selects w = true := OpcodeRow.selects_iff.mpr h
    exact ⟨fun hm => decode_of_rowCshift hrow (congrArg modeOfField hm),
      fun hm => decode_of_rowCshift hrow (congrArg modeOfField hm),
      fun hm => decode_of_rowCshift hrow (congrArg modeOfField hm),
      fun hm => decode_of_reservedMode (.inl hrow) hm⟩
  · have hrow : rowCaesar.selects w = true := OpcodeRow.selects_iff.mpr h
    exact ⟨fun hm => decode_of_rowCaesar hrow (congrArg modeOfField hm),
      fun hm => decode_of_rowCaesar hrow (congrArg modeOfField hm),
      fun hm => decode_of_rowCaesar hrow (congrArg modeOfField hm),
      fun hm => decode_of_reservedMode (.inr hrow) hm⟩

/-- Settles O4: an unselected word is either in one of the two rows with `MODE`, where it is then 3, or in no row;
executing it is one `State.raise`. -/
theorem unselectedWordIsIllegal : Obligations.UnselectedWordIsIllegal := by
  refine ⟨fun w hseed hnextw hnextc hvernam hcshift hcaesar => ?_, ⟨.unknownOpcode, by decide⟩,
    ⟨.unknownOpcode, by decide⟩, fun w e s he => ⟨s.raise .illegalCommand,
      Machine.acceptCommand_of_illegal s he, Machine.faultedWith_raise s .illegalCommand⟩⟩
  by_cases hcshiftRow : rowCshift.selects w = true
  · have hmode := hcshift.resolve_left (not_not_intro (OpcodeRow.selects_iff.mp hcshiftRow))
    exact ⟨_, decode_of_reservedMode (.inl hcshiftRow) hmode⟩
  by_cases hcaesarRow : rowCaesar.selects w = true
  · have hmode := hcaesar.resolve_left (not_not_intro (OpcodeRow.selects_iff.mp hcaesarRow))
    exact ⟨_, decode_of_reservedMode (.inr hcaesarRow) hmode⟩
  have hno_row : ∀ r ∈ opcodeRows, r.selects w = false := by
    simp only [opcodeRows, List.forall_mem_cons]
    exact ⟨OpcodeRow.not_selects_iff.mpr hseed,
      (OpcodeRow.not_selects_iff_of_full_mask (by decide)).mpr hnextw,
      (OpcodeRow.not_selects_iff_of_full_mask (by decide)).mpr hnextc,
      OpcodeRow.not_selects_iff.mpr hvernam,
      Bool.eq_false_iff.mpr hcshiftRow, Bool.eq_false_iff.mpr hcaesarRow, by simp⟩
  exact decode_of_no_row hno_row

end Sys2Proof

/-!
PROOFS. The Generator commands (`40_generator.md`): what a draw does to the Generator (R121), what `NEXTW` and
`NEXTC` answer (R122, R125), and why `SEED` forgets the Generator it finds (R120).
-/

namespace Sys2Proof.Machine

/-! The draw (R121) and the character of a drawn word (R124), in the unsigned values the rules speak of. -/

/-- The refill: at the last word of the batch a draw runs `BATCH` and starts again at 0. -/
theorem Generator.advance_of_last {q : Generator} (h : q.cursor.val = 255) :
    q.advance = { q.batch with cursor := 0 } :=
  if_pos (Fin.ext h)

/-- Before the last word of the batch a draw moves `cursor` alone, and by 1 without wrapping. -/
theorem Generator.advance_of_not_last {q : Generator} (h : q.cursor.val ≠ 255) :
    q.advance = { q with cursor := q.advance.cursor } ∧ q.advance.cursor.val = q.cursor.val + 1 := by
  have hadv : q.advance = { q with cursor := q.cursor + 1 } :=
    if_neg fun hlast => h (congrArg Fin.val hlast)
  have hval : (q.cursor + 1).val = q.cursor.val + 1 :=
    Fin.val_add_one_of_lt' (by omega)
  rw [hadv]
  exact ⟨rfl, hval⟩

theorem printable_range (w : Word) : 32 ≤ (printable w).toNat ∧ (printable w).toNat ≤ 126 := by
  rw [printable_toNat]
  omega

/-! What the Generator commands answer, one equation per case. -/

theorem exec_nextw_of_seeded {s : State} (h : s.seeded = true) :
    exec .nextw s = .next ({ s with gen := s.gen.advance, resp := s.gen.rsl[s.gen.cursor] } : State).succeed :=
  if_pos h

theorem exec_nextw_of_not_seeded {s : State} (h : s.seeded = false) :
    exec .nextw s = .next (s.raise .notSeeded) :=
  if_neg (Bool.eq_false_iff.mp h)

theorem exec_nextc_of_seeded {s : State} (h : s.seeded = true) :
    exec .nextc s = .next
      ({ s with gen := s.gen.advance, resp := zext32 (printable s.gen.rsl[s.gen.cursor]) } : State).succeed :=
  if_pos h

theorem exec_nextc_of_not_seeded {s : State} (h : s.seeded = false) :
    exec .nextc s = .next (s.raise .notSeeded) :=
  if_neg (Bool.eq_false_iff.mp h)

theorem exec_seed (f : Bool) (len : Nat) (s : State) :
    exec (.seed f len) s = .next
      ({ s with gen := s.gen.seed f s.ibuf len, status := statusSetSeeded s.status } : State).succeed :=
  rfl

/-- A command that succeeds, and writes `STATUS` only by that, ends well (R190). -/
theorem endedWell_succeed {s t : State} (h : t.status = s.status) : EndedWell s t.succeed :=
  ⟨by simp, by simp [State.flt, h], by simp [State.seeded, h], by simp [h]⟩

/-- Settles O19: a draw at the last word of the batch is a refill, any other moves `cursor` alone. -/
theorem nextwResult : Obligations.NextwResult := by
  exact ⟨fun s hs => ⟨_, exec_nextw_of_seeded hs, rfl, Generator.advance_of_last,
      Generator.advance_of_not_last, endedWell_succeed rfl, rfl, fun _ => ⟨rfl, rfl⟩⟩,
    fun s hs => ⟨_, exec_nextw_of_not_seeded hs, faultedWith_raise s .notSeeded⟩⟩

/-- Settles O20: `RESP` is the character map's value of the word `NEXTW` draws, which no width change alters, and the
two commands leave one and the same Generator. -/
theorem nextcResult : Obligations.NextcResult := by
  refine ⟨fun s hs => ?_, fun s hs => ⟨_, exec_nextc_of_not_seeded hs, faultedWith_raise s .notSeeded⟩⟩
  have hresp := zext32_toNat (printable s.gen.rsl[s.gen.cursor])
  have hrange := printable_range s.gen.rsl[s.gen.cursor]
  exact ⟨_, _, exec_nextc_of_seeded hs, exec_nextw_of_seeded hs, hresp.trans (printable_toNat _),
    hrange.1.trans_eq hresp.symm, hresp.trans_le hrange.2, fun k => printable_range _,
    rfl, endedWell_succeed rfl, rfl, fun _ => ⟨rfl, rfl⟩⟩

/-! `SEED` and the Generator it finds (R120). -/

/-- A batch reads neither `rsl` nor `cursor`, writes all of `rsl`, and `cursor` is then set: Generators that agree on
`mm` and the accumulators are refilled to one Generator (R112, R117). -/
theorem Generator.refill_congr {q r : Generator} (hmm : q.mm = r.mm) (hA : q.accA = r.accA)
    (hB : q.accB = r.accB) (hC : q.accC = r.accC) :
    ({ q.batch with cursor := 0 } : Generator) = { r.batch with cursor := 0 } := by
  obtain ⟨is, hall, -, hbatch⟩ := Generator.batch_run
  have hheadB : q.batchHead.accB = r.batchHead.accB := by simp only [Generator.batchHead, hB, hC]
  have hheadC : q.batchHead.accC = r.batchHead.accC := congrArg (· + 1) hC
  obtain ⟨emm, eA, eB, eC, ersl⟩ :=
    Generator.batchPositions_congr is (q := q.batchHead) (r := r.batchHead) hmm hA hheadB hheadC
  simp only [hbatch, Generator.mk.injEq, true_and]
  exact ⟨emm, Vector.ext fun j hj => ersl ⟨j, hj⟩ (.inl (hall _)), eA, eB, eC⟩

/-- `SEED` reaches the Generator through the scrambled staged seed alone (R115, R117). -/
theorem Generator.seed_congr (q r : Generator) {f : Bool} {m1 m2 : Memory} {len1 len2 : Nat}
    (h : scramble f (Vector.replicate 256 0) (stagedSeed m1 len1) =
      scramble f (Vector.replicate 256 0) (stagedSeed m2 len2)) :
    q.seed f m1 len1 = r.seed f m2 len2 :=
  Generator.refill_congr h rfl rfl rfl

/-- Buffers that agree below `min(LEN, 256)` stage the same seed (R115, R119). -/
theorem stagedSeed_congr_of_read {m1 m2 : Memory} {len : Nat}
    (h : ∀ k, k < min len 256 → m1.read k = m2.read k) : stagedSeed m1 len = stagedSeed m2 len := by
  refine stagedSeed_congr fun k hk => ?_
  unfold seedWord
  split
  next hlen => rw [h k (Nat.lt_min.mpr ⟨hlen, hk⟩)]
  next => rfl

/-- Settles O36: the two states stage the same seed, and a Generator's seeding sees nothing else. -/
theorem seedForgetsTheGenerator : Obligations.SeedForgetsTheGenerator := by
  intro f len s1 s2 hread
  have hstaged : stagedSeed s1.ibuf len = stagedSeed s2.ibuf len := stagedSeed_congr_of_read hread
  exact ⟨_, _, exec_seed f len s1, exec_seed f len s2,
    Generator.seed_congr s1.gen s2.gen (congrArg (scramble f _) hstaged)⟩

end Sys2Proof.Machine

/-!
PROOFS. The cipher commands (`41_cipher.md`): what the Caesar shift function computes (R143), and what `VERNAM`,
`CSHIFT` and `CAESAR` answer in each case of their checks (R140, R144, R145).
-/

namespace Sys2Proof.Machine

/-! The Caesar shift function: normalizing the truncating remainder gives the floored one (R143). -/

/-- The truncating remainder differs from the dividend by a multiple of the divisor. -/
theorem tmod_emod (d m : Int) : d.tmod m % m = d % m := by
  conv_rhs => rw [← Int.tmod_add_mul_tdiv d m, Int.add_mul_emod_self_left]

theorem emod_eq_tmod_of_nonneg {d m : Int} (hm : 0 < m) (h : 0 ≤ d.tmod m) : d % m = d.tmod m := by
  rw [← tmod_emod, Int.emod_eq_of_lt h (Int.tmod_lt_of_pos d hm)]

theorem emod_eq_tmod_add_of_neg {d m : Int} (hm : 0 < m) (h : d.tmod m < 0) : d % m = d.tmod m + m := by
  have hlow : -m < d.tmod m := Int.lt_tmod_of_pos d hm
  rw [← tmod_emod, ← Int.add_emod_right, Int.emod_eq_of_lt (by omega) (by omega)]

theorem signedShift_decipher (shift : Byte) : signedShift .decipher shift = -(shift.toNat : Int) := rfl

theorem signedShift_of_ne_decipher {mode : CipherMode} (h : mode ≠ .decipher) (shift : Byte) :
    signedShift mode shift = shift.toNat := by
  cases mode with
  | none => rfl
  | encipher => rfl
  | decipher => exact absurd rfl h

/-- `None` shifts as `Encipher` (R146). -/
theorem cshift_none : cshift .none = cshift .encipher := rfl

theorem modulus_pos_of_legal {modulus start : Byte} (h : ¬ BadAlphabetOperands modulus start) :
    (0 : Int) < modulus.toNat := by
  simp only [BadAlphabetOperands] at h
  omega

theorem cshift_eq_ofInt_emod (mode : CipherMode) (ch shift : Byte) {modulus start : Byte}
    (hm : (0 : Int) < modulus.toNat) : cshift mode ch shift modulus start = BitVec.ofInt 8
      (start.toNat + ((ch.toNat : Int) - start.toNat + signedShift mode shift) % modulus.toNat) := by
  rw [cshift]
  split
  next hneg => rw [emod_eq_tmod_add_of_neg hm hneg]
  next hnonneg => rw [emod_eq_tmod_of_nonneg hm (Int.not_lt.mp hnonneg)]

/-- In a legal alphabet the sum of `start` and the remainder is a byte, so that `low8` loses nothing (R143). -/
theorem cshift_toNat (mode : CipherMode) (ch shift : Byte) {modulus start : Byte}
    (h : ¬ BadAlphabetOperands modulus start) : ((cshift mode ch shift modulus start).toNat : Int) =
      start.toNat + ((ch.toNat : Int) - start.toNat + signedShift mode shift) % modulus.toNat := by
  have hm := modulus_pos_of_legal h
  rw [cshift_eq_ofInt_emod mode ch shift hm, BitVec.toNat_ofInt]
  generalize (ch.toNat : Int) - start.toNat + signedShift mode shift = d
  have hlow : 0 ≤ d % (modulus.toNat : Int) := Int.emod_nonneg d hm.ne'
  have hhigh : d % (modulus.toNat : Int) < modulus.toNat := Int.emod_lt_of_pos d hm
  simp only [BadAlphabetOperands] at h
  omega

/-! A successful cipher command over `LEN` bytes: the message loop seen through the state it leaves. -/

section
variable (s : State) (f : Byte → Byte → Byte) (len : Nat)

@[simp] theorem State.runCipher_gen : (s.runCipher f len).gen = s.gen.afterDraws len :=
  (cipherLoop_spec f s.ibuf len 0 s.gen s.obuf).1

theorem State.runCipher_read_obuf_of_lt {k : Nat} (h : k < len) :
    (s.runCipher f len).obuf.read k = f (s.ibuf.read k) (s.gen.keyChar k) :=
  ((cipherLoop_spec f s.ibuf len 0 s.gen s.obuf).2 k).trans (if_pos (by omega))

theorem State.runCipher_read_obuf_of_le {k : Nat} (h : len ≤ k) :
    (s.runCipher f len).obuf.read k = s.obuf.read k :=
  ((cipherLoop_spec f s.ibuf len 0 s.gen s.obuf).2 k).trans (if_neg (by omega))

theorem endedWell_runCipher : EndedWell s (s.runCipher f len) :=
  endedWell_succeed rfl

end

/-! What the cipher commands answer, one equation per case of their checks, in the order of R187. -/

section
variable {len : Nat} {s : State}

theorem exec_vernam_of_not_seeded (h : s.seeded = false) :
    exec (.vernam len) s = .next (s.raise .notSeeded) :=
  if_pos h

theorem exec_vernam_of_too_long (h : s.seeded = true) (hlen : s.maxLen < len) :
    exec (.vernam len) s = .next (s.raise .inputTooLong) :=
  (if_neg (ne_false_of_eq_true h)).trans (if_pos hlen)

theorem exec_vernam_of_accepted (h : s.seeded = true) (hlen : len ≤ s.maxLen) :
    exec (.vernam len) s = .next (s.runCipher (fun m c => m ^^^ c) len) :=
  (if_neg (ne_false_of_eq_true h)).trans (if_neg hlen.not_gt)

end

section
variable (mode : CipherMode) (shift : Byte) {ch modulus start : Byte} (s : State)

theorem exec_cshift_of_badAlphabet (h : BadAlphabetOperands modulus start) :
    exec (.cshift mode ch shift modulus start) s = .next (s.raise .badAlphabet) :=
  if_pos ((legalAlphabet_eq_false modulus start).mpr h)

theorem exec_cshift_of_outOfAlphabet (h : ¬ BadAlphabetOperands modulus start)
    (hch : OutsideAlphabet modulus start ch) :
    exec (.cshift mode ch shift modulus start) s = .next (s.raise .outOfAlphabet) :=
  (if_neg (mt (legalAlphabet_eq_false modulus start).mp h)).trans
    (if_pos ((inAlphabet_eq_false modulus start ch).mpr hch))

theorem exec_cshift_of_accepted (h : ¬ BadAlphabetOperands modulus start)
    (hch : ¬ OutsideAlphabet modulus start ch) : exec (.cshift mode ch shift modulus start) s =
      .next ({ s with resp := zext32 (cshift mode ch shift modulus start) } : State).succeed :=
  (if_neg (mt (legalAlphabet_eq_false modulus start).mp h)).trans
    (if_neg (mt (inAlphabet_eq_false modulus start ch).mp hch))

end

section
variable (mode : CipherMode) {modulus start : Byte} {len : Nat} {s : State}

theorem exec_caesar_of_not_seeded (h : s.seeded = false) :
    exec (.caesar mode modulus start len) s = .next (s.raise .notSeeded) :=
  if_pos h

theorem exec_caesar_of_too_long (h : s.seeded = true) (hlen : s.maxLen < len) :
    exec (.caesar mode modulus start len) s = .next (s.raise .inputTooLong) :=
  (if_neg (ne_false_of_eq_true h)).trans (if_pos hlen)

theorem exec_caesar_of_badAlphabet (h : s.seeded = true) (hlen : len ≤ s.maxLen) (hpos : 0 < len)
    (hbad : BadAlphabetOperands modulus start) :
    exec (.caesar mode modulus start len) s = .next (s.raise .badAlphabet) :=
  (if_neg (ne_false_of_eq_true h)).trans <| (if_neg hlen.not_gt).trans <|
    if_pos ⟨hpos, (legalAlphabet_eq_false modulus start).mpr hbad⟩

/-- One byte outside the alphabet is enough, so that the message is not empty (R148). -/
theorem exec_caesar_of_outOfAlphabet (h : s.seeded = true) (hlen : len ≤ s.maxLen)
    (hlegal : ¬ BadAlphabetOperands modulus start)
    (hout : ∃ k, k < len ∧ OutsideAlphabet modulus start (s.ibuf.read k)) :
    exec (.caesar mode modulus start len) s = .next (s.raise .outOfAlphabet) := by
  have hpos : 0 < len := hout.elim fun k hk => k.zero_le.trans_lt hk.1
  exact (if_neg (ne_false_of_eq_true h)).trans <| (if_neg hlen.not_gt).trans <|
    (if_neg fun hbad => hlegal ((legalAlphabet_eq_false modulus start).mp hbad.2)).trans <|
    if_pos ⟨hpos, (messageInAlphabet_eq_false s.ibuf modulus start len).mpr hout⟩

/-- The alphabet of an empty message is not looked at (R149). -/
theorem exec_caesar_of_accepted (h : s.seeded = true) (hlen : len ≤ s.maxLen)
    (hlegal : 0 < len → ¬ BadAlphabetOperands modulus start)
    (hin : ∀ k, k < len → ¬ OutsideAlphabet modulus start (s.ibuf.read k)) :
    exec (.caesar mode modulus start len) s =
      .next (s.runCipher (fun m c => cshift mode m c modulus start) len) := by
  have hmessage : ¬ messageInAlphabet s.ibuf modulus start len = false := by
    simpa only [messageInAlphabet_eq_false, not_exists, not_and] using hin
  exact (if_neg (ne_false_of_eq_true h)).trans <| (if_neg hlen.not_gt).trans <|
    (if_neg fun hbad => hlegal hbad.1 ((legalAlphabet_eq_false modulus start).mp hbad.2)).trans <|
    if_neg fun hout => hmessage hout.2

end

/-- Settles O27: the two modes name one shift function, and neither command looks at the mode elsewhere. -/
theorem noneShiftsAsEncipher : Obligations.NoneShiftsAsEncipher := by
  intro s
  simp only [exec, execCshift, execCaesar, cshift_none, implies_true, and_self]

/-- Settles O23: `n` is the floored remainder, which is the truncating one with `modulus` added when that is negative,
and `START` plus it fits the byte that `RESP` extends. -/
theorem cshiftResult : Obligations.CshiftResult := by
  refine ⟨fun mode ch shift modulus start s hlegal hin => ?_,
    fun mode ch shift modulus start s hbad =>
      ⟨_, exec_cshift_of_badAlphabet mode shift s hbad, faultedWith_raise s .badAlphabet⟩,
    fun mode ch shift modulus start s hlegal hout =>
      ⟨_, exec_cshift_of_outOfAlphabet mode shift s hlegal hout, faultedWith_raise s .outOfAlphabet⟩⟩
  have hm := modulus_pos_of_legal hlegal
  have hresp := (congrArg Nat.cast (zext32_toNat _)).trans (cshift_toNat mode ch shift hlegal)
  refine ⟨_, _, _, exec_cshift_of_accepted mode shift s hlegal hin, ?_, ?_,
    emod_eq_tmod_of_nonneg hm, emod_eq_tmod_add_of_neg hm, hresp, endedWell_succeed rfl, rfl,
    fun k => ⟨rfl, rfl⟩⟩
  · rintro rfl
    rw [signedShift_decipher, ← sub_eq_add_neg]
  · intro hmode
    rw [signedShift_of_ne_decipher hmode]

/-- Settles O21: an accepted `VERNAM` is one run of the message loop with XOR. -/
theorem vernamResult : Obligations.VernamResult := by
  refine ⟨fun len s hs hlen => ?_, fun len s hs => ?_, fun len s hs hlen => ?_⟩
  · exact ⟨_, exec_vernam_of_accepted hs hlen, fun k => State.runCipher_read_obuf_of_lt s _ len,
      fun k => State.runCipher_read_obuf_of_le s _ len, rfl, State.runCipher_gen s _ len,
      endedWell_runCipher s _ len, rfl, fun k => rfl⟩
  · exact ⟨_, exec_vernam_of_not_seeded hs, faultedWith_raise s .notSeeded⟩
  · exact ⟨_, exec_vernam_of_too_long hs hlen, faultedWith_raise s .inputTooLong⟩

/-- Settles O26: an accepted `CAESAR` is one run of the message loop with the shift function, and each fault is its
own case of the checks. -/
theorem caesarResult : Obligations.CaesarResult := by
  refine ⟨fun mode modulus start len s hs hlen hlegal hin => ?_,
    fun mode modulus start len s => ⟨fun hs => ?_, fun hs hlen => ?_, fun hs hlen hpos hbad => ?_,
      fun hs hlen hlegal hout => ?_⟩⟩
  · exact ⟨_, exec_caesar_of_accepted mode hs hlen hlegal hin,
      fun k => State.runCipher_read_obuf_of_lt s _ len, fun k => State.runCipher_read_obuf_of_le s _ len,
      rfl, State.runCipher_gen s _ len, endedWell_runCipher s _ len, rfl, fun k => rfl⟩
  · exact ⟨_, exec_caesar_of_not_seeded mode hs, faultedWith_raise s .notSeeded⟩
  · exact ⟨_, exec_caesar_of_too_long mode hs hlen, faultedWith_raise s .inputTooLong⟩
  · exact ⟨_, exec_caesar_of_badAlphabet mode hs hlen hpos hbad, faultedWith_raise s .badAlphabet⟩
  · exact ⟨_, exec_caesar_of_outOfAlphabet mode hs hlen hlegal hout, faultedWith_raise s .outOfAlphabet⟩

end Sys2Proof.Machine

/-!
PROOFS. Laws of the cipher layer over sequences of commands (`42_properties.md`): machines seeded alike stay alike
(R160, R165), deciphering under identical re-seeding gives the message back (R163, R164), and the empty message (R167).
-/

namespace Sys2Proof.Machine

/-! What `SEED` leaves, and a command run right after it (R61, R117). -/

/-- The state that `SEED f, len` leaves (R117). -/
def State.seededBy (s : State) (f : Bool) (len : Nat) : State :=
  ({ s with gen := s.gen.seed f s.ibuf len, status := statusSetSeeded s.status } : State).succeed

/-- The state in which a command after `SEED f, len` runs, the host having filled `IBUF` with `m` (R61). -/
def State.reseeded (s : State) (f : Bool) (len : Nat) (m : Memory) : State :=
  { s.seededBy f len with ibuf := m }

theorem exec_seed_eq_seededBy (f : Bool) (len : Nat) (s : State) :
    exec (.seed f len) s = .next (s.seededBy f len) :=
  rfl

@[simp] theorem State.seededBy_seeded (s : State) (f : Bool) (len : Nat) : (s.seededBy f len).seeded = true := by
  simp [State.seededBy, State.seeded]

theorem State.reseeded_seeded (s : State) (f : Bool) (len : Nat) (m : Memory) :
    (s.reseeded f len m).seeded = true :=
  s.seededBy_seeded f len

/-- Equal seed bytes leave equal Generators, whatever the two states held (R120, R160). -/
theorem State.seededBy_gen_congr {s1 s2 : State} {len : Nat} (f : Bool)
    (h : ∀ k, k < min len 256 → s1.ibuf.read k = s2.ibuf.read k) :
    (s1.seededBy f len).gen = (s2.seededBy f len).gen :=
  Generator.seed_congr s1.gen s2.gen (congrArg (scramble f _) (stagedSeed_congr_of_read h))

theorem execScript_cons_of_next {s t : State} {m : Memory} {i : Instr} {rest : List (Memory × Instr)}
    (h : exec i { s with ibuf := m } = .next t) : execScript ((m, i) :: rest) s = execScript rest t := by
  simp only [execScript, h]

theorem execScript_seed_command {s t : State} {f : Bool} {len : Nat} {m : Memory} {i : Instr}
    (h : exec i (s.reseeded f len m) = .next t) : execScript [(s.ibuf, .seed f len), (m, i)] s = .next t :=
  (execScript_cons_of_next (exec_seed_eq_seededBy f len s)).trans (execScript_cons_of_next h)

/-- Settles O37: with `F = 0` the scrambling does not read the staged seed, and `SEED` sees nothing else. -/
theorem nullSeedIgnoresSeedBytes : Obligations.NullSeedIgnoresSeedBytes := by
  intro len1 len2 s1 s2
  exact ⟨_, _, exec_seed false len1 s1, exec_seed false len2 s2,
    Generator.seed_congr s1.gen s2.gen (scramble_false _ _ _)⟩

/-- Settles O28: the message loop over no bytes leaves the Generator and `OBUF` as they are, and an empty message is
neither too long nor outside any alphabet. -/
theorem emptyMessageDrawsNothing : Obligations.EmptyMessageDrawsNothing := by
  intro s hs
  have hlen : 0 ≤ s.maxLen := s.maxLen.zero_le
  refine ⟨⟨_, exec_vernam_of_accepted hs hlen, endedWell_runCipher s _ 0, rfl⟩, fun mode modulus start => ?_⟩
  have haccepted := exec_caesar_of_accepted mode (modulus := modulus) (start := start) hs hlen
    (fun hpos => absurd hpos (Nat.lt_irrefl 0)) (fun k hk => absurd hk k.not_lt_zero)
  exact ⟨_, haccepted, endedWell_runCipher s _ 0, rfl⟩

/-! Deciphering what was enciphered with the same keystream (R163, R164). -/

/-- The message loop run over the output of a message loop, from one Generator, gives the message back where the
second function undoes the first under every character of the keystream. -/
theorem State.runCipher_roundTrip {s1 s2 : State} {enc dec : Byte → Byte → Byte} {len : Nat}
    (hgen : s1.gen = s2.gen)
    (hinverse : ∀ k, k < len → ∀ c, dec (enc (s1.ibuf.read k) c) c = s1.ibuf.read k)
    (houtput : ∀ k, k < len → s2.ibuf.read k = (s1.runCipher enc len).obuf.read k) :
    ∀ k, k < len → (s2.runCipher dec len).obuf.read k = s1.ibuf.read k := by
  intro k hk
  rw [State.runCipher_read_obuf_of_lt s2 dec len hk, houtput k hk,
    State.runCipher_read_obuf_of_lt s1 enc len hk, hgen]
  exact hinverse k hk _

@[simp] theorem State.runCipher_seeded (s : State) (f : Byte → Byte → Byte) (len : Nat) :
    (s.runCipher f len).seeded = s.seeded := by
  simp [State.seeded]

theorem State.runCipher_err (s : State) (f : Byte → Byte → Byte) (len : Nat) : (s.runCipher f len).err = 0 :=
  (endedWell_runCipher s f len).1

/-- Settles O42: the two commands draw one keystream, and XOR with a character undoes itself. -/
theorem vernamRoundTrip : Obligations.VernamRoundTrip := by
  intro f n len s1 s2 message hlen1 hlen2 hseed
  refine ⟨_, execScript_seed_command (exec_vernam_of_accepted (s1.reseeded_seeded f n message) hlen1),
    State.runCipher_err _ _ len, fun output houtput =>
    ⟨_, execScript_seed_command (exec_vernam_of_accepted (s2.reseeded_seeded f n output) hlen2),
      State.runCipher_err _ _ len, rfl, ?_⟩⟩
  exact State.runCipher_roundTrip (s1 := s1.reseeded f n message) (State.seededBy_gen_congr f hseed)
    (fun k _ c => by rw [BitVec.xor_assoc, BitVec.xor_self, BitVec.xor_zero]) houtput

/-- The shifted character stays in a legal alphabet (R147). -/
theorem cshift_not_outsideAlphabet (mode : CipherMode) (ch shift : Byte) {modulus start : Byte}
    (h : ¬ BadAlphabetOperands modulus start) :
    ¬ OutsideAlphabet modulus start (cshift mode ch shift modulus start) := by
  have hvalue := cshift_toNat mode ch shift h
  have hm := modulus_pos_of_legal h
  generalize (ch.toNat : Int) - start.toNat + signedShift mode shift = d at hvalue
  have hlow : 0 ≤ d % (modulus.toNat : Int) := Int.emod_nonneg d hm.ne'
  have hhigh : d % (modulus.toNat : Int) < modulus.toNat := Int.emod_lt_of_pos d hm
  simp only [OutsideAlphabet]
  omega

/-- Two shifts that cancel out give a character of the alphabet back: the distance from `START` is below `MODULUS`,
so that it is its own remainder (R147). -/
theorem cshift_cshift_of_cancel {mode1 mode2 : CipherMode} {ch shift modulus start : Byte}
    (hcancel : signedShift mode1 shift + signedShift mode2 shift = 0)
    (h : ¬ BadAlphabetOperands modulus start) (hch : ¬ OutsideAlphabet modulus start ch) :
    cshift mode2 (cshift mode1 ch shift modulus start) shift modulus start = ch := by
  have hdist : ((ch.toNat : Int) - start.toNat) % modulus.toNat = ch.toNat - start.toNat := by
    simp only [OutsideAlphabet] at hch
    exact Int.emod_eq_of_lt (by omega) (by omega)
  refine BitVec.eq_of_toNat_eq (Int.ofNat.inj ?_)
  calc ((cshift mode2 (cshift mode1 ch shift modulus start) shift modulus start).toNat : Int)
    _ = start.toNat + (((ch.toNat : Int) - start.toNat + signedShift mode1 shift) % modulus.toNat
          + signedShift mode2 shift) % modulus.toNat := by
        rw [cshift_toNat _ _ _ h, cshift_toNat _ _ _ h, add_sub_cancel_left]
    _ = start.toNat + ((ch.toNat : Int) - start.toNat) % modulus.toNat := by
        rw [Int.emod_add_emod, add_assoc, hcancel, add_zero]
    _ = ch.toNat := by rw [hdist, add_sub_cancel]

/-- `SEED` and then a `CAESAR` over a message inside a legal alphabet: neither faults (R164). -/
theorem execScript_seed_caesar (mode : CipherMode) {modulus start : Byte} {len : Nat} {s : State} (f : Bool)
    (n : Nat) {m : Memory} (hlen : len ≤ s.maxLen) (hlegal : ¬ BadAlphabetOperands modulus start)
    (hin : ∀ k, k < len → ¬ OutsideAlphabet modulus start (m.read k)) :
    execScript [(s.ibuf, .seed f n), (m, .caesar mode modulus start len)] s =
      .next ((s.reseeded f n m).runCipher (fun ch c => cshift mode ch c modulus start) len) :=
  execScript_seed_command
    (exec_caesar_of_accepted mode (s.reseeded_seeded f n m) hlen (fun _ => hlegal) hin)

/-- Settles O43: what enciphering wrote lies in the alphabet, so that deciphering accepts it, and the two commands
draw one keystream, each character of which shifts back. -/
theorem caesarRoundTrip : Obligations.CaesarRoundTrip := by
  intro f n len modulus start mode s1 s2 message hmode hlen1 hlen2 hlegal hin hseed
  refine ⟨_, execScript_seed_caesar mode f n hlen1 hlegal hin, State.runCipher_err _ _ len,
    fun output houtput => ?_⟩
  have hinOutput : ∀ k, k < len → ¬ OutsideAlphabet modulus start (output.read k) := by
    intro k hk
    rw [houtput k hk, State.runCipher_read_obuf_of_lt _ _ _ hk]
    exact cshift_not_outsideAlphabet mode _ _ hlegal
  have hcancel : ∀ c, signedShift mode c + signedShift .decipher c = 0 := by
    intro c
    rw [signedShift_of_ne_decipher hmode, signedShift_decipher, add_neg_cancel]
  refine ⟨_, execScript_seed_caesar .decipher f n hlen2 hlegal hinOutput, State.runCipher_err _ _ len, rfl, ?_⟩
  refine State.runCipher_roundTrip (s1 := s1.reseeded f n message) (State.seededBy_gen_congr f hseed) ?_ houtput
  exact fun k hk c => cshift_cshift_of_cancel (hcancel c) hlegal (hin k hk)

/-! Two seeded machines under equal commands (R160). -/

/-- Two seeded machines of one `MAXLEN` with equal Generators: what equal seeds make, and what every common command
keeps. -/
structure SeededTwins (s1 s2 : State) : Prop where
  seeded1 : s1.seeded = true
  seeded2 : s2.seeded = true
  maxLen : s1.maxLen = s2.maxLen
  gen : s1.gen = s2.gen

section
variable {s1 s2 : State}

theorem SeededTwins.seededBy (f : Bool) {len : Nat} (hmax : s1.maxLen = s2.maxLen)
    (h : ∀ k, k < min len 256 → s1.ibuf.read k = s2.ibuf.read k) :
    SeededTwins (s1.seededBy f len) (s2.seededBy f len) :=
  ⟨by simp, by simp, hmax, State.seededBy_gen_congr f h⟩

theorem SeededTwins.withIbuf (h : SeededTwins s1 s2) (m : Memory) :
    SeededTwins { s1 with ibuf := m } { s2 with ibuf := m } :=
  ⟨h.seeded1, h.seeded2, h.maxLen, h.gen⟩

theorem SeededTwins.raise (h : SeededTwins s1 s2) (F : CommandFault) : SeededTwins (s1.raise F) (s2.raise F) :=
  ⟨by simp [h.seeded1], by simp [h.seeded2], h.maxLen, h.gen⟩

theorem SeededTwins.runCipher (h : SeededTwins s1 s2) (f : Byte → Byte → Byte) (len : Nat) :
    SeededTwins (s1.runCipher f len) (s2.runCipher f len) :=
  ⟨by simp [h.seeded1], by simp [h.seeded2], h.maxLen, by simp [h.gen]⟩

/-- A draw, or a command that draws nothing (`q` the Generator itself), that returns a word in `RESP`. -/
theorem SeededTwins.succeed (h : SeededTwins s1 s2) {q1 q2 : Generator} (hq : q1 = q2) (w1 w2 : Word) :
    SeededTwins ({ s1 with gen := q1, resp := w1 } : State).succeed
      ({ s2 with gen := q2, resp := w2 } : State).succeed :=
  ⟨(State.succeed_seeded _).trans h.seeded1, (State.succeed_seeded _).trans h.seeded2, h.maxLen, hq⟩

/-- Every command with the same `IBUF` contents takes the same branch of its checks in both twins, and each branch
keeps them twins. -/
theorem SeededTwins.exec_next (h : SeededTwins s1 s2) (hibuf : s1.ibuf = s2.ibuf) (i : Instr) :
    ∃ t1 t2, exec i s1 = .next t1 ∧ exec i s2 = .next t2 ∧ SeededTwins t1 t2 := by
  cases i with
  | seed f len =>
    exact ⟨_, _, exec_seed_eq_seededBy f len s1, exec_seed_eq_seededBy f len s2,
      .seededBy f h.maxLen fun k _ => by rw [hibuf]⟩
  | nextw =>
    exact ⟨_, _, exec_nextw_of_seeded h.seeded1, exec_nextw_of_seeded h.seeded2,
      h.succeed (congrArg Generator.advance h.gen) _ _⟩
  | nextc =>
    exact ⟨_, _, exec_nextc_of_seeded h.seeded1, exec_nextc_of_seeded h.seeded2,
      h.succeed (congrArg Generator.advance h.gen) _ _⟩
  | vernam len =>
    rcases Nat.lt_or_ge s1.maxLen len with hlong | hfits
    · exact ⟨_, _, exec_vernam_of_too_long h.seeded1 hlong,
        exec_vernam_of_too_long h.seeded2 (h.maxLen ▸ hlong), h.raise _⟩
    · exact ⟨_, _, exec_vernam_of_accepted h.seeded1 hfits,
        exec_vernam_of_accepted h.seeded2 (h.maxLen ▸ hfits), h.runCipher _ len⟩
  | cshift mode ch shift modulus start =>
    by_cases hbad : BadAlphabetOperands modulus start
    · exact ⟨_, _, exec_cshift_of_badAlphabet mode shift s1 hbad,
        exec_cshift_of_badAlphabet mode shift s2 hbad, h.raise _⟩
    by_cases hout : OutsideAlphabet modulus start ch
    · exact ⟨_, _, exec_cshift_of_outOfAlphabet mode shift s1 hbad hout,
        exec_cshift_of_outOfAlphabet mode shift s2 hbad hout, h.raise _⟩
    exact ⟨_, _, exec_cshift_of_accepted mode shift s1 hbad hout,
      exec_cshift_of_accepted mode shift s2 hbad hout, h.succeed h.gen _ _⟩
  | caesar mode modulus start len =>
    rcases Nat.lt_or_ge s1.maxLen len with hlong | hfits
    · exact ⟨_, _, exec_caesar_of_too_long mode h.seeded1 hlong,
        exec_caesar_of_too_long mode h.seeded2 (h.maxLen ▸ hlong), h.raise _⟩
    have hfits2 : len ≤ s2.maxLen := h.maxLen ▸ hfits
    by_cases hbad : 0 < len ∧ BadAlphabetOperands modulus start
    · obtain ⟨hpos, hillegal⟩ := hbad
      exact ⟨_, _, exec_caesar_of_badAlphabet mode h.seeded1 hfits hpos hillegal,
        exec_caesar_of_badAlphabet mode h.seeded2 hfits2 hpos hillegal, h.raise _⟩
    have hlegal : 0 < len → ¬ BadAlphabetOperands modulus start := not_and.mp hbad
    by_cases hout : ∃ k, k < len ∧ OutsideAlphabet modulus start (s1.ibuf.read k)
    · have hpos : 0 < len := hout.elim fun k hk => k.zero_le.trans_lt hk.1
      exact ⟨_, _, exec_caesar_of_outOfAlphabet mode h.seeded1 hfits (hlegal hpos) hout,
        exec_caesar_of_outOfAlphabet mode h.seeded2 hfits2 (hlegal hpos) (hibuf ▸ hout), h.raise _⟩
    have hin : ∀ k, k < len → ¬ OutsideAlphabet modulus start (s1.ibuf.read k) :=
      fun k hk hoff => hout ⟨k, hk, hoff⟩
    exact ⟨_, _, exec_caesar_of_accepted mode h.seeded1 hfits hlegal hin,
      exec_caesar_of_accepted mode h.seeded2 hfits2 hlegal (hibuf ▸ hin), h.runCipher _ len⟩

/-- Every common sequence of commands with common `IBUF` contents ends in both, and keeps them twins. -/
theorem SeededTwins.execScript_next (h : SeededTwins s1 s2) (script : List (Memory × Instr)) :
    ∃ t1 t2, execScript script s1 = .next t1 ∧ execScript script s2 = .next t2 ∧ SeededTwins t1 t2 := by
  induction script generalizing s1 s2 with
  | nil => exact ⟨s1, s2, rfl, rfl, h⟩
  | cons command rest ih =>
    obtain ⟨m, i⟩ := command
    obtain ⟨u1, u2, hu1, hu2, hu⟩ := (h.withIbuf m).exec_next rfl i
    rw [execScript_cons_of_next hu1, execScript_cons_of_next hu2]
    exact ih hu

end

theorem execScript_append_of_next {s t : State} {script : List (Memory × Instr)}
    (h : execScript script s = .next t) (rest : List (Memory × Instr)) :
    execScript (script ++ rest) s = execScript rest t := by
  induction script generalizing s with
  | nil =>
    obtain rfl : s = t := Host.Outcome.next.inj h
    rfl
  | cons command script ih =>
    obtain ⟨m, i⟩ := command
    simp only [List.cons_append, execScript] at h ⊢
    split at h
    next u hu => exact ih h
    next => exact absurd h nofun
    next => exact absurd h nofun

/-- A `NEXTW` that ends a sequence of commands on a seeded machine returns the word drawn (R122). -/
theorem resp_of_last_nextw {s t u : State} {before : List (Memory × Instr)} {m : Memory}
    (hbefore : execScript before s = .next t) (hseeded : t.seeded = true)
    (h : execScript (before ++ [(m, .nextw)]) s = .next u) : u.resp = t.gen.draw.1 := by
  have hnextw := exec_nextw_of_seeded (s := { t with ibuf := m }) hseeded
  rw [execScript_append_of_next hbefore, execScript_cons_of_next hnextw] at h
  rw [← Host.Outcome.next.inj h]
  rfl

/-- Settles O39: `SEED` makes the two machines twins, every sequence of commands keeps them so, and the word a
last `NEXTW` returns is read from the Generator they share. -/
theorem seededAlikeRunAlike : Obligations.SeededAlikeRunAlike := by
  intro f len s1 s2 hmax hseed
  have htwins : SeededTwins (s1.seededBy f len) (s2.seededBy f len) := .seededBy f hmax hseed
  refine ⟨_, _, exec_seed_eq_seededBy f len s1, exec_seed_eq_seededBy f len s2, htwins.gen, fun script => ?_⟩
  obtain ⟨b1, b2, hb1, hb2, hb⟩ := htwins.execScript_next script
  refine ⟨b1, b2, hb1, hb2, hb.gen, ?_⟩
  rintro before m rfl
  obtain ⟨c1, c2, hc1, hc2, hc⟩ := htwins.execScript_next before
  rw [resp_of_last_nextw hc1 hc.seeded1 hb1, resp_of_last_nextw hc2 hc.seeded2 hb2, hc.gen]

end Sys2Proof.Machine

/-!
PROOFS. Faults (`60_exceptions.md`): which of several causes a command reports (R187), and the commands that `NotSeeded`
and `InputTooLong` are never reported for (R182, R183).
-/

namespace Sys2Proof.Machine

/-- The codes tell the faults apart (R180). -/
theorem CommandFault.code_injective : Function.Injective CommandFault.code := by
  intro F G
  cases F <;> cases G <;> decide

/-! One lemma per cause: a command whose cause is the first in the order of R187 raises that fault. A command that
cannot have the cause has `False` for it. -/

section
variable {i : Instr} {s : State}

theorem exec_of_causeNotSeeded (h : CauseNotSeeded i s) : exec i s = .next (s.raise .notSeeded) := by
  cases i with
  | seed => exact h.elim
  | nextw => exact exec_nextw_of_not_seeded h
  | nextc => exact exec_nextc_of_not_seeded h
  | vernam => exact exec_vernam_of_not_seeded h
  | cshift => exact h.elim
  | caesar mode => exact exec_caesar_of_not_seeded mode h

theorem exec_of_causeInputTooLong (hseeded : ¬ CauseNotSeeded i s) (h : CauseInputTooLong i s) :
    exec i s = .next (s.raise .inputTooLong) := by
  cases i with
  | seed | nextw | nextc | cshift => exact h.elim
  | vernam => exact exec_vernam_of_too_long (Bool.eq_true_of_not_eq_false hseeded) h
  | caesar mode => exact exec_caesar_of_too_long mode (Bool.eq_true_of_not_eq_false hseeded) h

theorem exec_of_causeBadAlphabet (hseeded : ¬ CauseNotSeeded i s) (hlen : ¬ CauseInputTooLong i s)
    (h : CauseBadAlphabet i) : exec i s = .next (s.raise .badAlphabet) := by
  cases i with
  | seed | nextw | nextc | vernam => exact h.elim
  | cshift mode ch shift => exact exec_cshift_of_badAlphabet mode shift s h
  | caesar mode =>
    obtain ⟨hpos, hbad⟩ := h
    exact exec_caesar_of_badAlphabet mode (Bool.eq_true_of_not_eq_false hseeded) (Nat.not_lt.mp hlen) hpos hbad

theorem exec_of_causeOutOfAlphabet (hseeded : ¬ CauseNotSeeded i s) (hlen : ¬ CauseInputTooLong i s)
    (hlegal : ¬ CauseBadAlphabet i) (h : CauseOutOfAlphabet i s) :
    exec i s = .next (s.raise .outOfAlphabet) := by
  cases i with
  | seed | nextw | nextc | vernam => exact h.elim
  | cshift mode ch shift => exact exec_cshift_of_outOfAlphabet mode shift s hlegal h
  | caesar mode =>
    obtain ⟨k, hk, hout⟩ := h
    exact exec_caesar_of_outOfAlphabet mode (Bool.eq_true_of_not_eq_false hseeded) (Nat.not_lt.mp hlen)
      (not_and.mp hlegal (k.zero_le.trans_lt hk)) ⟨k, hk, hout⟩

theorem exec_of_noCause (h : NoCause i s) : ∃ t, exec i s = .next t ∧ t.err = 0 ∧ t.flt = s.flt := by
  obtain ⟨hseeded, hlen, hlegal, hin⟩ := h
  cases i with
  | seed f len => exact ⟨_, exec_seed f len s, by simp, by simp [State.flt]⟩
  | nextw =>
    exact ⟨_, exec_nextw_of_seeded (Bool.eq_true_of_not_eq_false hseeded), State.succeed_err _, State.succeed_flt _⟩
  | nextc =>
    exact ⟨_, exec_nextc_of_seeded (Bool.eq_true_of_not_eq_false hseeded), State.succeed_err _, State.succeed_flt _⟩
  | vernam len =>
    exact ⟨_, exec_vernam_of_accepted (Bool.eq_true_of_not_eq_false hseeded) (Nat.not_lt.mp hlen),
      State.succeed_err _, State.succeed_flt _⟩
  | cshift mode ch shift =>
    exact ⟨_, exec_cshift_of_accepted mode shift s hlegal hin, State.succeed_err _, State.succeed_flt _⟩
  | caesar mode =>
    exact ⟨_, exec_caesar_of_accepted mode (Bool.eq_true_of_not_eq_false hseeded) (Nat.not_lt.mp hlen)
      (not_and.mp hlegal) (fun k hk hout => hin ⟨k, hk, hout⟩), State.succeed_err _, State.succeed_flt _⟩

end

/-- The first cause in the order of R187 that holds for a decoded command, by the fault it raises. -/
inductive FirstCause (i : Instr) (s : State) : CommandFault → Prop where
  | notSeeded (h : CauseNotSeeded i s) : FirstCause i s .notSeeded
  | inputTooLong (hseeded : ¬ CauseNotSeeded i s) (h : CauseInputTooLong i s) : FirstCause i s .inputTooLong
  | badAlphabet (hseeded : ¬ CauseNotSeeded i s) (hlen : ¬ CauseInputTooLong i s) (h : CauseBadAlphabet i) :
      FirstCause i s .badAlphabet
  | outOfAlphabet (hseeded : ¬ CauseNotSeeded i s) (hlen : ¬ CauseInputTooLong i s)
      (hlegal : ¬ CauseBadAlphabet i) (h : CauseOutOfAlphabet i s) : FirstCause i s .outOfAlphabet

theorem exec_of_firstCause {i : Instr} {s : State} {F : CommandFault} (h : FirstCause i s F) :
    exec i s = .next (s.raise F) := by
  cases h with
  | notSeeded h => exact exec_of_causeNotSeeded h
  | inputTooLong hseeded h => exact exec_of_causeInputTooLong hseeded h
  | badAlphabet hseeded hlen h => exact exec_of_causeBadAlphabet hseeded hlen h
  | outOfAlphabet hseeded hlen hlegal h => exact exec_of_causeOutOfAlphabet hseeded hlen hlegal h

theorem exec_faults_of_firstCause {i : Instr} {s : State} {F : CommandFault} (h : FirstCause i s F) :
    ∃ t, exec i s = .next t ∧ FaultedWith F.code s t :=
  ⟨_, exec_of_firstCause h, faultedWith_raise s F⟩

theorem firstCause_or_noCause (i : Instr) (s : State) : (∃ F, FirstCause i s F) ∨ NoCause i s := by
  by_cases hseeded : CauseNotSeeded i s
  · exact .inl ⟨_, .notSeeded hseeded⟩
  by_cases hlen : CauseInputTooLong i s
  · exact .inl ⟨_, .inputTooLong hseeded hlen⟩
  by_cases hlegal : CauseBadAlphabet i
  · exact .inl ⟨_, .badAlphabet hseeded hlen hlegal⟩
  by_cases hin : CauseOutOfAlphabet i s
  · exact .inl ⟨_, .outOfAlphabet hseeded hlen hlegal hin⟩
  exact .inr ⟨hseeded, hlen, hlegal, hin⟩

/-- A decoded command raises the fault of its first cause, or has none and succeeds (R187, R190). -/
theorem exec_by_firstCause (i : Instr) (s : State) :
    (∃ F, FirstCause i s F ∧ exec i s = .next (s.raise F)) ∨
    (∃ t, exec i s = .next t ∧ t.err = 0 ∧ t.flt = s.flt) := by
  obtain ⟨F, hF⟩ | hnone := firstCause_or_noCause i s
  · exact .inl ⟨F, hF, exec_of_firstCause hF⟩
  · exact .inr (exec_of_noCause hnone)

/-- Every command ends in a next state (R189). -/
theorem exec_total (i : Instr) (s : State) : ∃ t, exec i s = .next t := by
  obtain ⟨F, -, hexec⟩ | ⟨t, hexec, -⟩ := exec_by_firstCause i s
  · exact ⟨_, hexec⟩
  · exact ⟨t, hexec⟩

/-- A code is reported only for a first cause. -/
theorem exec_err_ne_code {i : Instr} {s : State} {F : CommandFault} (h : ¬ FirstCause i s F) :
    ∃ t, exec i s = .next t ∧ t.err ≠ F.code := by
  obtain ⟨G, hG, hexec⟩ | ⟨t, hexec, herr, -⟩ := exec_by_firstCause i s
  · have hne : G ≠ F := fun heq => h (heq ▸ hG)
    exact ⟨_, hexec, (State.raise_err s G).trans_ne (CommandFault.code_injective.ne hne)⟩
  · exact ⟨t, hexec, herr.trans_ne F.code_ne_zero.symm⟩

/-- Settles O14: the order of R187 is the order in which the commands make their checks. -/
theorem firstCauseIsReported : Obligations.FirstCauseIsReported := by
  refine ⟨fun w e s h => ⟨_, acceptCommand_of_illegal s h, faultedWith_raise s .illegalCommand⟩, fun i s => ?_⟩
  obtain ⟨t, ht⟩ := exec_total i s
  have hfault : ∀ {F}, FirstCause i s F → FaultedWith F.code s t := by
    intro F hF
    obtain ⟨u, hu, hfaulted⟩ := exec_faults_of_firstCause hF
    obtain rfl : t = u := Host.Outcome.next.inj (ht.symm.trans hu)
    exact hfaulted
  refine ⟨t, ht, fun h => hfault (.notSeeded h), fun hseeded h => hfault (.inputTooLong hseeded h),
    fun hseeded hlen h => hfault (.badAlphabet hseeded hlen h),
    fun hseeded hlen hlegal h => hfault (.outOfAlphabet hseeded hlen hlegal h), fun hnone => ?_⟩
  obtain ⟨u, hu, hended⟩ := exec_of_noCause hnone
  obtain rfl : t = u := Host.Outcome.next.inj (ht.symm.trans hu)
  exact hended

/-- Settles O15: for each of the four commands that draw, `SEEDED` being 0 is the first cause; the other two cannot
have it. -/
theorem drawBeforeSeedFaults : Obligations.DrawBeforeSeedFaults := by
  intro s
  have hfault : ∀ i, CauseNotSeeded i s → ∃ t, exec i s = .next t ∧ FaultedWith 2 s t :=
    fun i hcause => exec_faults_of_firstCause (.notSeeded hcause)
  refine ⟨fun hs => ⟨hfault .nextw hs, hfault .nextc hs, fun len => hfault (.vernam len) hs,
      fun mode modulus start len => hfault (.caesar mode modulus start len) hs⟩,
    fun mode ch shift modulus start => exec_err_ne_code (F := .notSeeded) ?_,
    fun f len => exec_err_ne_code (F := .notSeeded) ?_⟩
  · exact fun | .notSeeded hcause => hcause
  · exact fun | .notSeeded hcause => hcause

/-- Settles O16: with `SEEDED` 1 a length above `MAXLEN` is the first cause of the two commands; `MAXLEN` itself is not
above it, and `SEED` cannot have the cause. -/
theorem overlongMessageFaults : Obligations.OverlongMessageFaults := by
  intro s hs
  have hseeded : ¬ s.seeded = false := ne_false_of_eq_true hs
  have hfault : ∀ i, ¬ CauseNotSeeded i s → CauseInputTooLong i s →
      ∃ t, exec i s = .next t ∧ FaultedWith 3 s t :=
    fun i hcauseless hlong => exec_faults_of_firstCause (.inputTooLong hcauseless hlong)
  refine ⟨fun len hlong => hfault (.vernam len) hseeded hlong,
    fun mode modulus start len hlong => hfault (.caesar mode modulus start len) hseeded hlong,
    ⟨_, exec_vernam_of_accepted hs s.maxLen.le_refl, State.runCipher_err s _ _⟩,
    fun mode modulus start => exec_err_ne_code (F := .inputTooLong) ?_,
    fun f len => exec_err_ne_code (F := .inputTooLong) ?_⟩
  · exact fun | .inputTooLong _ hlong => s.maxLen.lt_irrefl hlong
  · exact fun | .inputTooLong _ hcause => hcause

end Sys2Proof.Machine

/-!
PROOFS. The command word as its fields (`30_encoding.md` R81): a word is its fields, a row of the table is a condition
on each field by itself (R84), and so the encoder and the decoder undo each other (R88).
-/

namespace Sys2Proof

/-! A word and its fields (R81). -/

/-- The fields of R81's picture, the reserved bits 23:19 among them. -/
@[ext] structure Fields where
  op : Byte
  ch : Byte
  shift : Byte
  modulus : Byte
  start : Byte
  reserved : BitVec 5
  f : BitVec 1
  mode : BitVec 2
  len : BitVec 16

/-- The word with these fields, most significant first. -/
def Fields.word (x : Fields) : CmdWord :=
  x.op ++ x.ch ++ x.shift ++ x.modulus ++ x.start ++ x.reserved ++ x.f ++ x.mode ++ x.len

/-- AND of two words, field by field. -/
def Fields.and (x y : Fields) : Fields :=
  ⟨x.op &&& y.op, x.ch &&& y.ch, x.shift &&& y.shift, x.modulus &&& y.modulus, x.start &&& y.start,
    x.reserved &&& y.reserved, x.f &&& y.f, x.mode &&& y.mode, x.len &&& y.len⟩

/-- The fields of a word. -/
def fieldsOf (w : CmdWord) : Fields :=
  ⟨fieldOp w, fieldCh w, fieldShift w, fieldModulus w, fieldStart w, w.extractLsb' 19 5, w.extractLsb' 18 1,
    fieldMode w, w.extractLsb' 0 16⟩

@[simp] theorem word_fieldsOf (w : CmdWord) : (fieldsOf w).word = w := by
  simp only [Fields.word, fieldsOf, fieldOp, fieldCh, fieldShift, fieldModulus, fieldStart, fieldMode,
    BitVec.extractLsb'_append_extractLsb'_eq_extractLsb', BitVec.extractLsb'_eq_self]

theorem fieldsOf_injective : Function.Injective fieldsOf :=
  Function.LeftInverse.injective word_fieldsOf

theorem append_eq_append_iff {v w : Nat} {a a' : BitVec v} {b b' : BitVec w} :
    a ++ b = a' ++ b' ↔ a = a' ∧ b = b' := by
  refine ⟨fun h => ⟨?_, ?_⟩, fun ⟨ha, hb⟩ => ha ▸ hb ▸ rfl⟩
  · simpa only [BitVec.extractLsb'_append_eq_left] using congrArg (BitVec.extractLsb' w v) h
  · simpa only [BitVec.extractLsb'_append_eq_right] using congrArg (BitVec.extractLsb' 0 w) h

theorem Fields.word_injective : Function.Injective Fields.word := by
  intro x y h
  unfold Fields.word at h
  rw [append_eq_append_iff, append_eq_append_iff, append_eq_append_iff, append_eq_append_iff,
    append_eq_append_iff, append_eq_append_iff, append_eq_append_iff, append_eq_append_iff] at h
  simpa only [Fields.ext_iff, and_assoc] using h

@[simp] theorem fieldsOf_word (x : Fields) : fieldsOf x.word = x :=
  Fields.word_injective (word_fieldsOf x.word)

theorem fieldsOf_assemble (op ch shift modulus start : Byte) (f : Bool) (mode : BitVec 2) (len : Nat) :
    fieldsOf (assemble op ch shift modulus start f mode len) =
      ⟨op, ch, shift, modulus, start, 0, BitVec.ofBool f, mode, BitVec.ofNat 16 len⟩ :=
  fieldsOf_word ⟨op, ch, shift, modulus, start, 0, BitVec.ofBool f, mode, BitVec.ofNat 16 len⟩

theorem fieldsOf_and (w m : CmdWord) : fieldsOf (w &&& m) = (fieldsOf w).and (fieldsOf m) := by
  simp only [fieldsOf, Fields.and, fieldOp, fieldCh, fieldShift, fieldModulus, fieldStart, fieldMode,
    BitVec.extractLsb'_and]

/-- A word is an assembled one exactly when each field is. -/
theorem eq_assemble_iff {w : CmdWord} {op ch shift modulus start : Byte} {f : Bool} {mode : BitVec 2} {len : Nat} :
    w = assemble op ch shift modulus start f mode len ↔
      fieldsOf w = ⟨op, ch, shift, modulus, start, 0, BitVec.ofBool f, mode, BitVec.ofNat 16 len⟩ := by
  rw [← fieldsOf_assemble, fieldsOf_injective.eq_iff]

@[simp] theorem ofBool_fieldF (w : CmdWord) : BitVec.ofBool (fieldF w) = w.extractLsb' 18 1 := by
  refine BitVec.eq_of_getLsbD_eq fun i hi => ?_
  obtain rfl : i = 0 := by omega
  simp [fieldF]

@[simp] theorem ofNat_fieldLen (w : CmdWord) : BitVec.ofNat 16 (fieldLen w) = w.extractLsb' 0 16 := by
  simp only [fieldLen, BitVec.ofNat_toNat, BitVec.setWidth_eq]

theorem lenFits_fieldLen (w : CmdWord) : lenFits (fieldLen w) = true :=
  decide_eq_true (w.extractLsb' 0 16).isLt

section
variable (op ch shift modulus start : Byte) (f : Bool) (mode : BitVec 2) (len : Nat)

@[simp] theorem fieldCh_assemble : fieldCh (assemble op ch shift modulus start f mode len) = ch :=
  congrArg Fields.ch (fieldsOf_assemble ..)

@[simp] theorem fieldShift_assemble : fieldShift (assemble op ch shift modulus start f mode len) = shift :=
  congrArg Fields.shift (fieldsOf_assemble ..)

@[simp] theorem fieldModulus_assemble : fieldModulus (assemble op ch shift modulus start f mode len) = modulus :=
  congrArg Fields.modulus (fieldsOf_assemble ..)

@[simp] theorem fieldStart_assemble : fieldStart (assemble op ch shift modulus start f mode len) = start :=
  congrArg Fields.start (fieldsOf_assemble ..)

@[simp] theorem fieldMode_assemble : fieldMode (assemble op ch shift modulus start f mode len) = mode :=
  congrArg Fields.mode (fieldsOf_assemble ..)

@[simp] theorem fieldF_assemble : fieldF (assemble op ch shift modulus start f mode len) = f := by
  have h := congrArg Fields.f (fieldsOf_assemble op ch shift modulus start f mode len)
  exact BitVec.ofBool_eq_iff_eq.mp ((ofBool_fieldF _).trans h)

theorem fieldLen_assemble (h : lenFits len = true) :
    fieldLen (assemble op ch shift modulus start f mode len) = len := by
  have hlen := congrArg Fields.len (fieldsOf_assemble op ch shift modulus start f mode len)
  exact (congrArg BitVec.toNat hlen).trans (Nat.mod_eq_of_lt (of_decide_eq_true h))

end

/-! A row selects a word exactly when the word is assembled from the row's `OP`, the fields the row leaves free and
zeros (R84). Each mask has all bits of a field or none. -/

theorem OpcodeRow.selects_iff_fields {r : OpcodeRow} {w : CmdWord} :
    r.selects w = true ↔ (fieldsOf w).and (fieldsOf r.mask) = fieldsOf r.pattern := by
  rw [OpcodeRow.selects_iff, ← fieldsOf_and, fieldsOf_injective.eq_iff]

@[simp] theorem byte_and_ones (b : Byte) : b &&& 255#8 = b := BitVec.and_allOnes
@[simp] theorem reserved_and_ones (b : BitVec 5) : b &&& 31#5 = b := BitVec.and_allOnes
@[simp] theorem f_and_ones (b : BitVec 1) : b &&& 1#1 = b := BitVec.and_allOnes
@[simp] theorem mode_and_ones (b : BitVec 2) : b &&& 3#2 = b := BitVec.and_allOnes
@[simp] theorem len_and_ones (b : BitVec 16) : b &&& 65535#16 = b := BitVec.and_allOnes

section
variable {w : CmdWord}

theorem rowSeed_selects_iff :
    rowSeed.selects w = true ↔ w = assemble 1 0 0 0 0 (fieldF w) 0 (fieldLen w) := by
  rw [OpcodeRow.selects_iff_fields, eq_assemble_iff]
  simp [rowSeed, Fields.and, fieldsOf, fieldOp, fieldCh, fieldShift, fieldModulus, fieldStart, fieldMode]

theorem rowNextw_selects_iff : rowNextw.selects w = true ↔ w = assemble 2 0 0 0 0 false 0 0 := by
  rw [OpcodeRow.selects_iff_fields, eq_assemble_iff]
  simp [rowNextw, Fields.and, fieldsOf, fieldOp, fieldCh, fieldShift, fieldModulus, fieldStart, fieldMode]

theorem rowNextc_selects_iff : rowNextc.selects w = true ↔ w = assemble 3 0 0 0 0 false 0 0 := by
  rw [OpcodeRow.selects_iff_fields, eq_assemble_iff]
  simp [rowNextc, Fields.and, fieldsOf, fieldOp, fieldCh, fieldShift, fieldModulus, fieldStart, fieldMode]

theorem rowVernam_selects_iff :
    rowVernam.selects w = true ↔ w = assemble 4 0 0 0 0 false 0 (fieldLen w) := by
  rw [OpcodeRow.selects_iff_fields, eq_assemble_iff]
  simp [rowVernam, Fields.and, fieldsOf, fieldOp, fieldCh, fieldShift, fieldModulus, fieldStart, fieldMode]

theorem rowCshift_selects_iff : rowCshift.selects w = true ↔
    w = assemble 5 (fieldCh w) (fieldShift w) (fieldModulus w) (fieldStart w) false (fieldMode w) 0 := by
  rw [OpcodeRow.selects_iff_fields, eq_assemble_iff]
  simp [rowCshift, Fields.and, fieldsOf, fieldOp, fieldCh, fieldShift, fieldModulus, fieldStart, fieldMode]

theorem rowCaesar_selects_iff : rowCaesar.selects w = true ↔
    w = assemble 6 0 0 (fieldModulus w) (fieldStart w) false (fieldMode w) (fieldLen w) := by
  rw [OpcodeRow.selects_iff_fields, eq_assemble_iff]
  simp [rowCaesar, Fields.and, fieldsOf, fieldOp, fieldCh, fieldShift, fieldModulus, fieldStart, fieldMode]

end

/-- Settles O1: the word of a command is assembled as its row requires, so that the row selects it, and the fields read
back are the operands. -/
theorem decodeOfEncodeIsIdentity : Obligations.DecodeOfEncodeIsIdentity := by
  intro i hwf
  cases i with
  | seed f len =>
    have hf : fieldF (encode (.seed f len)) = f := fieldF_assemble ..
    have hlen : fieldLen (encode (.seed f len)) = len := fieldLen_assemble (h := hwf) ..
    have hrow : rowSeed.selects (encode (.seed f len)) = true :=
      rowSeed_selects_iff.mpr (by rw [hf, hlen]; rfl)
    rw [decode_of_rowSeed hrow, hf, hlen]
  | nextw => exact decode_of_rowNextw (rowNextw_selects_iff.mpr rfl)
  | nextc => exact decode_of_rowNextc (rowNextc_selects_iff.mpr rfl)
  | vernam len =>
    have hlen : fieldLen (encode (.vernam len)) = len := fieldLen_assemble (h := hwf) ..
    have hrow : rowVernam.selects (encode (.vernam len)) = true :=
      rowVernam_selects_iff.mpr (by rw [hlen]; rfl)
    rw [decode_of_rowVernam hrow, hlen]
  | cshift mode ch shift modulus start =>
    have hrow : rowCshift.selects (encode (.cshift mode ch shift modulus start)) = true :=
      rowCshift_selects_iff.mpr (by simp only [encode, opcodeOf, fieldCh_assemble, fieldShift_assemble,
        fieldModulus_assemble, fieldStart_assemble, fieldMode_assemble])
    have hmode : modeOfField (fieldMode (encode (.cshift mode ch shift modulus start))) = some mode := by
      simp [encode]
    rw [decode_of_rowCshift hrow hmode]
    simp [encode]
  | caesar mode modulus start len =>
    have hlen : fieldLen (encode (.caesar mode modulus start len)) = len := fieldLen_assemble (h := hwf) ..
    have hrow : rowCaesar.selects (encode (.caesar mode modulus start len)) = true :=
      rowCaesar_selects_iff.mpr (by
        rw [hlen]
        simp only [encode, opcodeOf, fieldModulus_assemble, fieldStart_assemble, fieldMode_assemble])
    have hmode : modeOfField (fieldMode (encode (.caesar mode modulus start len))) = some mode := by
      simp [encode]
    rw [decode_of_rowCaesar hrow hmode, hlen]
    simp [encode]

/-- A word that decodes to a command is selected by that command's row, and the operands are its fields. -/
theorem decode_command_cases {w : CmdWord} {i : Instr} (h : decode w = .command i) :
    (rowSeed.selects w = true ∧ i = .seed (fieldF w) (fieldLen w)) ∨
    (rowNextw.selects w = true ∧ i = .nextw) ∨
    (rowNextc.selects w = true ∧ i = .nextc) ∨
    (rowVernam.selects w = true ∧ i = .vernam (fieldLen w)) ∨
    (∃ m, rowCshift.selects w = true ∧ modeOfField (fieldMode w) = some m ∧
      i = .cshift m (fieldCh w) (fieldShift w) (fieldModulus w) (fieldStart w)) ∨
    (∃ m, rowCaesar.selects w = true ∧ modeOfField (fieldMode w) = some m ∧
      i = .caesar m (fieldModulus w) (fieldStart w) (fieldLen w)) := by
  unfold decode at h
  split at h
  next hrow => exact .inl ⟨hrow, (Decoded.command.inj h).symm⟩
  split at h
  next hrow => exact .inr (.inl ⟨hrow, (Decoded.command.inj h).symm⟩)
  split at h
  next hrow => exact .inr (.inr (.inl ⟨hrow, (Decoded.command.inj h).symm⟩))
  split at h
  next hrow => exact .inr (.inr (.inr (.inl ⟨hrow, (Decoded.command.inj h).symm⟩)))
  split at h
  next hrow =>
    split at h
    next m hm => exact .inr (.inr (.inr (.inr (.inl ⟨m, hrow, hm, (Decoded.command.inj h).symm⟩))))
    next => cases h
  split at h
  next hrow =>
    split at h
    next m hm => exact .inr (.inr (.inr (.inr (.inr ⟨m, hrow, hm, (Decoded.command.inj h).symm⟩))))
    next => cases h
  split at h
  next => cases h
  next => cases h

/-- Settles O2: the row that selects the word requires it to be assembled from the fields the command was read from. -/
theorem encodeOfDecodeIsIdentity : Obligations.EncodeOfDecodeIsIdentity := by
  intro w i h
  rcases decode_command_cases h with ⟨hrow, rfl⟩ | ⟨hrow, rfl⟩ | ⟨hrow, rfl⟩ | ⟨hrow, rfl⟩ |
    ⟨m, hrow, hm, rfl⟩ | ⟨m, hrow, hm, rfl⟩
  · exact ⟨(rowSeed_selects_iff.mp hrow).symm, lenFits_fieldLen w⟩
  · exact ⟨(rowNextw_selects_iff.mp hrow).symm, rfl⟩
  · exact ⟨(rowNextc_selects_iff.mp hrow).symm, rfl⟩
  · exact ⟨(rowVernam_selects_iff.mp hrow).symm, lenFits_fieldLen w⟩
  · refine ⟨?_, rfl⟩
    rw [encode, modeBits_of_modeOfField hm]
    exact (rowCshift_selects_iff.mp hrow).symm
  · refine ⟨?_, lenFits_fieldLen w⟩
    rw [encode, modeBits_of_modeOfField hm]
    exact (rowCaesar_selects_iff.mp hrow).symm

end Sys2Proof

/-!
PROOFS. One command: it raises its first cause or leaves the state of its success (R187, R190), and what follows from
that for the frame of each command, for the draws it consumes (R168) and for what it can see of the machine
(R54, R160, R224).
-/

namespace Sys2Proof.Machine

/-- The state that a command without a cause of fault leaves (R117, R122, R125, R140, R144, R145). -/
def State.afterSuccess (s : State) (i : Instr) : State :=
  match i with
  | .seed f len => s.seededBy f len
  | .nextw => ({ s with gen := s.gen.advance, resp := s.gen.rsl[s.gen.cursor] } : State).succeed
  | .nextc => ({ s with gen := s.gen.advance, resp := zext32 (printable s.gen.rsl[s.gen.cursor]) } : State).succeed
  | .vernam len => s.runCipher (fun m c => m ^^^ c) len
  | .cshift mode ch shift modulus start =>
    ({ s with resp := zext32 (cshift mode ch shift modulus start) } : State).succeed
  | .caesar mode modulus start len => s.runCipher (fun m c => cshift mode m c modulus start) len

theorem exec_eq_afterSuccess {i : Instr} {s : State} (h : NoCause i s) : exec i s = .next (s.afterSuccess i) := by
  obtain ⟨hseeded, hlen, hlegal, hin⟩ := h
  cases i with
  | seed f len => rfl
  | nextw => exact exec_nextw_of_seeded (Bool.eq_true_of_not_eq_false hseeded)
  | nextc => exact exec_nextc_of_seeded (Bool.eq_true_of_not_eq_false hseeded)
  | vernam len => exact exec_vernam_of_accepted (Bool.eq_true_of_not_eq_false hseeded) (Nat.not_lt.mp hlen)
  | cshift mode ch shift => exact exec_cshift_of_accepted mode shift s hlegal hin
  | caesar mode modulus start len =>
    exact exec_caesar_of_accepted mode (Bool.eq_true_of_not_eq_false hseeded) (Nat.not_lt.mp hlen)
      (not_and.mp hlegal) (fun k hk hout => hin ⟨k, hk, hout⟩)

/-- A command raises its first cause, or has none and succeeds. -/
theorem exec_fault_or_success (i : Instr) (s : State) :
    (∃ F, FirstCause i s F ∧ exec i s = .next (s.raise F)) ∨ (NoCause i s ∧ exec i s = .next (s.afterSuccess i)) := by
  obtain ⟨F, hF⟩ | hnone := firstCause_or_noCause i s
  · exact .inl ⟨F, hF, exec_of_firstCause hF⟩
  · exact .inr ⟨hnone, exec_eq_afterSuccess hnone⟩

/-- The same as an inversion of the state a command leaves. -/
theorem exec_next_cases {i : Instr} {s t : State} (h : exec i s = .next t) :
    (∃ F, FirstCause i s F ∧ t = s.raise F) ∨ (NoCause i s ∧ t = s.afterSuccess i) := by
  obtain ⟨F, hF, hexec⟩ | ⟨hnone, hexec⟩ := exec_fault_or_success i s
  · exact .inl ⟨F, hF, Host.Outcome.next.inj (h.symm.trans hexec)⟩
  · exact .inr ⟨hnone, Host.Outcome.next.inj (h.symm.trans hexec)⟩

/-! The state of a success, field by field. -/

section
variable (s : State) (i : Instr)

@[simp] theorem State.afterSuccess_maxLen : (s.afterSuccess i).maxLen = s.maxLen := by
  cases i <;> rfl

@[simp] theorem State.afterSuccess_ibuf : (s.afterSuccess i).ibuf = s.ibuf := by
  cases i <;> rfl

theorem State.afterSuccess_status : (s.afterSuccess i).status = statusSetErr s.status 0 ∨
    (∃ f len, i = .seed f len) ∧ (s.afterSuccess i).status = statusSetErr (statusSetSeeded s.status) 0 := by
  cases i with
  | seed f len => exact .inr ⟨⟨f, len, rfl⟩, rfl⟩
  | nextw | nextc | vernam | cshift | caesar => exact .inl rfl

@[simp] theorem State.afterSuccess_err : (s.afterSuccess i).err = 0 := by
  obtain h | ⟨-, h⟩ := s.afterSuccess_status i <;> simp [State.err, h]

@[simp] theorem State.afterSuccess_flt : (s.afterSuccess i).flt = s.flt := by
  obtain h | ⟨-, h⟩ := s.afterSuccess_status i <;> simp [State.flt, h]

@[simp] theorem State.afterSuccess_reserved :
    statusReserved (s.afterSuccess i).status = statusReserved s.status := by
  obtain h | ⟨-, h⟩ := s.afterSuccess_status i <;> simp [h]

/-- `SEED` alone sets `SEEDED` (R32). -/
theorem State.afterSuccess_seeded :
    (s.afterSuccess i).seeded = true ↔ s.seeded = true ∨ ∃ f len, i = .seed f len := by
  cases i with
  | seed f len => simp [State.afterSuccess]
  | nextw | nextc | vernam | cshift | caesar => simp [State.afterSuccess, State.seeded]

/-- Every command but `SEED` leaves the Generator after its draws (R168). -/
theorem State.afterSuccess_gen {i : Instr} (h : ∀ f len, i ≠ .seed f len) :
    (s.afterSuccess i).gen = s.gen.afterDraws (drawsUsed i) := by
  cases i with
  | seed f len => exact absurd rfl (h f len)
  | nextw | nextc | cshift => rfl
  | vernam len => exact State.runCipher_gen s _ len
  | caesar mode modulus start len => exact State.runCipher_gen s _ len

end

/-- Settles O13: `State.raise` writes `ERR` and `FLT`, and a success `ERR` and at most `SEEDED`. -/
theorem faultWritesStatusOnly : Obligations.FaultWritesStatusOnly := by
  intro i s
  obtain ⟨F, -, hexec⟩ | ⟨-, hexec⟩ := exec_fault_or_success i s
  · refine ⟨_, hexec, fun _ => ?_, fun hzero => absurd ((State.raise_err s F).symm.trans hzero) F.code_ne_zero⟩
    rw [State.raise_err]
    exact faultedWith_raise s F
  · exact ⟨_, hexec, fun hne => absurd (s.afterSuccess_err i) hne, fun _ => s.afterSuccess_flt i⟩

/-- Settles O29: a fault writes `STATUS` alone, and a success is one update of the fields the command has; the message
loop leaves the bytes at and above `LEN`. -/
theorem eachCommandHasItsFrame : Obligations.EachCommandHasItsFrame := by
  intro s t
  refine ⟨fun f len h => ?seed, fun h => ?nextw, fun h => ?nextc, fun len h => ?vernam,
    fun mode ch shift modulus start h => ?cshift, fun mode modulus start len h => ?caesar⟩ <;>
    obtain ⟨F, -, rfl⟩ | ⟨-, rfl⟩ := exec_next_cases h
  case vernam.inl | caesar.inl => exact ⟨rfl, fun k _ => rfl⟩
  case vernam.inr | caesar.inr => exact ⟨rfl, fun k => State.runCipher_read_obuf_of_le s _ len⟩
  all_goals rfl

/-! Draws (R168). -/

theorem Generator.advance_cursor (q : Generator) : q.advance.cursor.val = (q.cursor.val + 1) % 256 := by
  by_cases hlast : q.cursor.val = 255
  · rw [Generator.advance_of_last hlast, hlast]
    rfl
  · rw [(Generator.advance_of_not_last hlast).2]
    omega

theorem Generator.afterDraws_cursor (q : Generator) (n : Nat) :
    (q.afterDraws n).cursor.val = (q.cursor.val + n) % 256 := by
  induction n with
  | zero => exact (Nat.mod_eq_of_lt q.cursor.isLt).symm
  | succ n ih =>
    have hstep := Generator.advance_cursor (q.afterDraws n)
    rw [ih, Nat.mod_add_mod] at hstep
    exact hstep

/-- Settles O41: a fault leaves the Generator, and a success leaves it after the command's draws, each of which moves
`cursor` by 1 modulo 256. -/
theorem drawAccounting : Obligations.DrawAccounting := by
  intro i s hseed
  obtain ⟨F, -, hexec⟩ | ⟨-, hexec⟩ := exec_fault_or_success i s
  · exact ⟨_, hexec, fun hzero => absurd ((State.raise_err s F).symm.trans hzero) F.code_ne_zero, fun _ => rfl⟩
  · have hgen := s.afterSuccess_gen hseed
    refine ⟨_, hexec, fun _ => ⟨hgen, ?_⟩, fun hne => absurd (s.afterSuccess_err i) hne⟩
    rw [hgen]
    exact Generator.afterDraws_cursor s.gen (drawsUsed i)

/-! What a command sees of the machine when it checks for faults: `SEEDED`, `MAXLEN` and the bytes it reads. -/

structure SameChecks (i : Instr) (s1 s2 : State) : Prop where
  seeded : s1.seeded = s2.seeded
  maxLen : s1.maxLen = s2.maxLen
  read : ∀ k, k < bytesRead i → s1.ibuf.read k = s2.ibuf.read k

section
variable {i : Instr} {s1 s2 : State}

theorem SameChecks.causeNotSeeded (h : SameChecks i s1 s2) : CauseNotSeeded i s1 ↔ CauseNotSeeded i s2 := by
  cases i <;> simp only [CauseNotSeeded, h.seeded]

theorem SameChecks.causeInputTooLong (h : SameChecks i s1 s2) : CauseInputTooLong i s1 ↔ CauseInputTooLong i s2 := by
  cases i <;> simp only [CauseInputTooLong, h.maxLen]

theorem SameChecks.causeOutOfAlphabet (h : SameChecks i s1 s2) :
    CauseOutOfAlphabet i s1 ↔ CauseOutOfAlphabet i s2 := by
  cases i with
  | seed | nextw | nextc | vernam | cshift => exact Iff.rfl
  | caesar mode modulus start len => exact exists_congr fun k => and_congr_right fun hk => by rw [h.read k hk]

theorem SameChecks.firstCause (h : SameChecks i s1 s2) {F : CommandFault} (hF : FirstCause i s1 F) :
    FirstCause i s2 F := by
  cases hF with
  | notSeeded hcause => exact .notSeeded (h.causeNotSeeded.mp hcause)
  | inputTooLong hseeded hcause =>
    exact .inputTooLong (mt h.causeNotSeeded.mpr hseeded) (h.causeInputTooLong.mp hcause)
  | badAlphabet hseeded hlen hcause =>
    exact .badAlphabet (mt h.causeNotSeeded.mpr hseeded) (mt h.causeInputTooLong.mpr hlen) hcause
  | outOfAlphabet hseeded hlen hlegal hcause =>
    exact .outOfAlphabet (mt h.causeNotSeeded.mpr hseeded) (mt h.causeInputTooLong.mpr hlen) hlegal
      (h.causeOutOfAlphabet.mp hcause)

theorem SameChecks.noCause (h : SameChecks i s1 s2) (hnone : NoCause i s1) : NoCause i s2 := by
  obtain ⟨hseeded, hlen, hlegal, hin⟩ := hnone
  exact ⟨mt h.causeNotSeeded.mpr hseeded, mt h.causeInputTooLong.mpr hlen, hlegal, mt h.causeOutOfAlphabet.mpr hin⟩

/-- A command ends alike on two machines that it sees alike: both raise one fault, or both succeed. -/
theorem SameChecks.exec_both (h : SameChecks i s1 s2) :
    (∃ F, exec i s1 = .next (s1.raise F) ∧ exec i s2 = .next (s2.raise F)) ∨
    (NoCause i s1 ∧ exec i s1 = .next (s1.afterSuccess i) ∧ exec i s2 = .next (s2.afterSuccess i)) := by
  obtain ⟨F, hF⟩ | hnone := firstCause_or_noCause i s1
  · exact .inl ⟨F, exec_of_firstCause hF, exec_of_firstCause (h.firstCause hF)⟩
  · exact .inr ⟨hnone, exec_eq_afterSuccess hnone, exec_eq_afterSuccess (h.noCause hnone)⟩

end

/-- The message loop reads the message's bytes alone (R224). -/
theorem State.runCipher_withIbuf {s : State} {m : Memory} (f : Byte → Byte → Byte) {len : Nat}
    (h : ∀ k, k < len → m.read k = s.ibuf.read k) :
    ({ s with ibuf := m } : State).runCipher f len = { s.runCipher f len with ibuf := m } := by
  have hloop : cipherLoop f m len 0 s.gen s.obuf = cipherLoop f s.ibuf len 0 s.gen s.obuf :=
    cipherLoop_congr f len 0 s.gen s.obuf fun j _ hj => h j (by omega)
  simp only [State.runCipher, State.succeed, hloop]

theorem State.afterSuccess_withIbuf {i : Instr} {s : State} {m : Memory}
    (h : ∀ k, k < bytesRead i → m.read k = s.ibuf.read k) :
    ({ s with ibuf := m } : State).afterSuccess i = { s.afterSuccess i with ibuf := m } := by
  cases i with
  | seed f len =>
    have hgen : s.gen.seed f m len = s.gen.seed f s.ibuf len :=
      Generator.seed_congr s.gen s.gen (congrArg (scramble f _) (stagedSeed_congr_of_read h))
    simp only [State.afterSuccess, State.seededBy, State.succeed, hgen]
  | nextw | nextc | cshift => rfl
  | vernam len => exact State.runCipher_withIbuf _ h
  | caesar mode modulus start len => exact State.runCipher_withIbuf _ h

/-- Settles O49: the checks and the success of a command see the bytes it reads alone. -/
theorem unreadInputBytesDoNotMatter : Obligations.UnreadInputBytesDoNotMatter := by
  intro i s m hread
  have hsame : SameChecks i s { s with ibuf := m } := ⟨rfl, rfl, fun k hk => (hread k hk).symm⟩
  obtain ⟨F, hs, hm⟩ | ⟨-, hs, hm⟩ := hsame.exec_both
  · exact ⟨_, hs, hm⟩
  · exact ⟨_, hs, hm.trans (congrArg Host.Outcome.next (State.afterSuccess_withIbuf hread))⟩

/-! Two machines with one Generator (R160). -/

section
variable {i : Instr} {s1 s2 : State}

theorem State.afterSuccess_gen_congr (hgen : s1.gen = s2.gen)
    (hread : ∀ k, k < bytesRead i → s1.ibuf.read k = s2.ibuf.read k) :
    (s1.afterSuccess i).gen = (s2.afterSuccess i).gen := by
  by_cases hseed : ∃ f len, i = .seed f len
  · obtain ⟨f, len, rfl⟩ := hseed
    exact State.seededBy_gen_congr f hread
  · have hnot_seed : ∀ f len, i ≠ .seed f len := fun f len heq => hseed ⟨f, len, heq⟩
    rw [s1.afterSuccess_gen hnot_seed, s2.afterSuccess_gen hnot_seed, hgen]

theorem State.afterSuccess_seeded_congr (h : s1.seeded = s2.seeded) :
    (s1.afterSuccess i).seeded = (s2.afterSuccess i).seeded := by
  rw [Bool.eq_iff_iff, s1.afterSuccess_seeded i, s2.afterSuccess_seeded i, h]

theorem State.afterSuccess_resp_congr (hgen : s1.gen = s2.gen)
    (hi : i = .nextw ∨ i = .nextc ∨ ∃ mode ch shift modulus start, i = .cshift mode ch shift modulus start) :
    (s1.afterSuccess i).resp = (s2.afterSuccess i).resp := by
  obtain rfl | rfl | ⟨mode, ch, shift, modulus, start, rfl⟩ := hi
  · simp [State.afterSuccess, hgen]
  · simp [State.afterSuccess, hgen]
  · rfl

theorem State.runCipher_output_congr (f : Byte → Byte → Byte) {len : Nat} (hgen : s1.gen = s2.gen)
    (hread : ∀ k, k < len → s1.ibuf.read k = s2.ibuf.read k) :
    (s1.runCipher f len).olen = (s2.runCipher f len).olen ∧
    ∀ k, k < len → (s1.runCipher f len).obuf.read k = (s2.runCipher f len).obuf.read k := by
  refine ⟨rfl, fun k hk => ?_⟩
  rw [State.runCipher_read_obuf_of_lt s1 f len hk, State.runCipher_read_obuf_of_lt s2 f len hk, hread k hk, hgen]

end

/-- Settles O50: the two machines raise one fault, or both succeed, and what a success writes is computed from the
Generator and the bytes read. -/
theorem everyCommandKeepsTwinsEqual : Obligations.EveryCommandKeepsTwinsEqual := by
  intro i s1 s2 hgen hseeded hmax hread
  have hsame : SameChecks i s1 s2 := ⟨hseeded, hmax, hread⟩
  obtain ⟨F, h1, h2⟩ | ⟨-, h1, h2⟩ := hsame.exec_both
  · have hfault : (s1.raise F).err ≠ 0 := (State.raise_err s1 F).trans_ne F.code_ne_zero
    exact ⟨_, _, h1, h2, hgen, by simp [hseeded], hmax, by simp, rfl, rfl, fun hzero => absurd hzero hfault,
      fun hzero => absurd hzero hfault⟩
  · refine ⟨_, _, h1, h2, State.afterSuccess_gen_congr hgen hread, State.afterSuccess_seeded_congr hseeded,
      by simpa using hmax, by simp, by simp, by simp, fun _ => State.afterSuccess_resp_congr hgen, ?_⟩
    rintro - len (rfl | ⟨mode, modulus, start, rfl⟩)
    · exact State.runCipher_output_congr _ hgen hread
    · exact State.runCipher_output_congr _ hgen hread

end Sys2Proof.Machine

/-!
PROOFS. The mixer in the words of its rules (`40_generator.md`): the eight lines of `MIX` (R110), the blocks of the
scrambling (R116), the positions of `BATCH` (R112, R113), and the draws after a `SEED` (R121, R123).
-/

namespace Sys2Proof.Machine

/-! `MIX` as eight lines of one pattern (R110). -/

/-- The eight variables by number, `a` being `v[0]`. -/
def WorkVars.toVector (v : WorkVars) : Vector Word 8 := #v[v.a, v.b, v.c, v.d, v.e, v.f, v.g, v.h]

/-- The shift of line `k`. -/
def lineShift (k : Fin 8) (w : Word) : Word :=
  match k with
  | 0 => w <<< 11
  | 1 => w >>> 2
  | 2 => w <<< 8
  | 3 => w >>> 16
  | 4 => w <<< 10
  | 5 => w >>> 4
  | 6 => w <<< 8
  | 7 => w >>> 9

/-- Line `k`: its three assignments, each from the variables before it. -/
def mixLine (v : Vector Word 8) (k : Fin 8) : Vector Word 8 :=
  let new := v[k] ^^^ lineShift k v[k + 1]
  ((v.set k.val new).set (k + 3).val (v[k + 3] + new)).set (k + 1).val (v[k + 1] + v[k + 2])

/-- The variables after the first `n` lines. -/
def mixLines (v : Vector Word 8) (n : Nat) : Vector Word 8 :=
  ((List.finRange 8).take n).foldl mixLine v

theorem mixLines_succ (v : Vector Word 8) (k : Fin 8) : mixLines v (k.val + 1) = mixLine (mixLines v k.val) k := by
  rw [mixLines, List.take_succ_eq_append_getElem (by simp), List.foldl_append, List.getElem_finRange]
  rfl

section
variable (a b c d e f g h : Word)

/-- The three assignments of each line, in the order of R110. -/
theorem mixLine_assigns :
    mixLine #v[a, b, c, d, e, f, g, h] 0 =
      #v[a ^^^ b <<< 11, b + c, c, d + (a ^^^ b <<< 11), e, f, g, h] ∧
    mixLine #v[a, b, c, d, e, f, g, h] 1 =
      #v[a, b ^^^ c >>> 2, c + d, d, e + (b ^^^ c >>> 2), f, g, h] ∧
    mixLine #v[a, b, c, d, e, f, g, h] 2 =
      #v[a, b, c ^^^ d <<< 8, d + e, e, f + (c ^^^ d <<< 8), g, h] ∧
    mixLine #v[a, b, c, d, e, f, g, h] 3 =
      #v[a, b, c, d ^^^ e >>> 16, e + f, f, g + (d ^^^ e >>> 16), h] ∧
    mixLine #v[a, b, c, d, e, f, g, h] 4 =
      #v[a, b, c, d, e ^^^ f <<< 10, f + g, g, h + (e ^^^ f <<< 10)] ∧
    mixLine #v[a, b, c, d, e, f, g, h] 5 =
      #v[a + (f ^^^ g >>> 4), b, c, d, e, f ^^^ g >>> 4, g + h, h] ∧
    mixLine #v[a, b, c, d, e, f, g, h] 6 =
      #v[a, b + (g ^^^ h <<< 8), c, d, e, f, g ^^^ h <<< 8, h + a] ∧
    mixLine #v[a, b, c, d, e, f, g, h] 7 =
      #v[a + b, b, c + (h ^^^ a >>> 9), d, e, f, g, h ^^^ a >>> 9] :=
  ⟨rfl, rfl, rfl, rfl, rfl, rfl, rfl, rfl⟩

end

theorem mixLines_eight (v : WorkVars) : mixLines v.toVector 8 = (mix v).toVector := by
  have hlines : List.finRange 8 = [0, 1, 2, 3, 4, 5, 6, 7] := by decide
  simp only [mixLines, hlines, List.take, List.foldl, WorkVars.toVector, mixLine_assigns, mix]

theorem mixLine_getElem (v : Vector Word 8) (k j : Fin 8) :
    (mixLine v k)[j] = if k + 1 = j then v[k + 1] + v[k + 2] else
      if k + 3 = j then v[k + 3] + (v[k] ^^^ lineShift k v[k + 1]) else
      if k = j then v[k] ^^^ lineShift k v[k + 1] else v[j] := by
  simp only [mixLine, Fin.getElem_fin, Vector.getElem_set, Fin.ext_iff]

theorem lines_apart : ∀ k : Fin 8, k + 1 ≠ k ∧ k + 3 ≠ k ∧ k + 1 ≠ k + 3 := by
  decide

/-- Settles O30: the lines are `mixLines`, whose eighth value is that of the 24 assignments of `mix`; the three
variables a line assigns are different ones. -/
theorem mixIsEightLines : Obligations.MixIsEightLines := by
  intro v
  refine ⟨mixLines v.toVector, rfl, mixLines_eight v, fun k => ?_⟩
  rw [mixLines_succ]
  generalize mixLines v.toVector k.val = p
  obtain ⟨h10, h30, h13⟩ := lines_apart k
  have hself : (mixLine p k)[k] = p[k] ^^^ lineShift k p[k + 1] := by
    rw [mixLine_getElem, if_neg h10, if_neg h30, if_pos rfl]
  refine ⟨p, mixLine p k, lineShift k p[k + 1], rfl, rfl, congrArg (lineShift · p[k + 1]),
    congrArg (lineShift · p[k + 1]), congrArg (lineShift · p[k + 1]), congrArg (lineShift · p[k + 1]),
    congrArg (lineShift · p[k + 1]), congrArg (lineShift · p[k + 1]), congrArg (lineShift · p[k + 1]),
    congrArg (lineShift · p[k + 1]), hself, ?_, ?_, fun j h0 h1 h3 => ?_⟩
  · rw [hself, mixLine_getElem, if_neg h13, if_pos rfl]
  · rw [mixLine_getElem, if_pos rfl]
  · rw [mixLine_getElem, if_neg h1.symm, if_neg h3.symm, if_neg h0.symm]

/-! The scrambling as a run of blocks (R116). -/

/-- The working variables and `mm` after the first `n` blocks, the second pass after the first. -/
def scrambleUpTo (f : Bool) (mm rsl : Vector Word 256) : Nat → WorkVars × Vector Word 256
  | 0 => (scrambleStart, mm)
  | n + 1 =>
    if n < 32 then firstPassBlock f rsl (scrambleUpTo f mm rsl n) n
    else secondPassBlock (scrambleUpTo f mm rsl n) (n - 32)

section
variable (f : Bool) (mm rsl : Vector Word 256)

theorem scrambleUpTo_firstPass {n : Nat} (h : n ≤ 32) :
    (List.range n).foldl (firstPassBlock f rsl) (scrambleStart, mm) = scrambleUpTo f mm rsl n := by
  induction n with
  | zero => rfl
  | succ n ih =>
    rw [List.range_succ, List.foldl_append, ih (by omega), scrambleUpTo, if_pos (by omega)]
    rfl

theorem scrambleUpTo_secondPass (n : Nat) :
    (List.range n).foldl secondPassBlock (scrambleUpTo f mm rsl 32) = scrambleUpTo f mm rsl (32 + n) := by
  induction n with
  | zero => rfl
  | succ n ih =>
    rw [List.range_succ, List.foldl_append, ih, ← Nat.add_assoc, scrambleUpTo, if_neg (by omega),
      Nat.add_sub_cancel_left]
    rfl

theorem scramble_eq_scrambleUpTo : scramble f mm rsl = (scrambleUpTo f mm rsl (if f then 64 else 32)).2 := by
  unfold scramble
  rw [scrambleUpTo_firstPass f mm rsl (Nat.le_refl 32)]
  cases f with
  | false => rfl
  | true => exact congrArg Prod.snd (scrambleUpTo_secondPass true mm rsl 32)

end

theorem getElem_wordIndex (mm : Vector Word 256) {n : Nat} (h : n < 256) : mm[wordIndex n] = mm[n] := by
  simp only [wordIndex, Fin.getElem_fin, Fin.val_ofNat, Nat.mod_eq_of_lt h]

theorem getElem_setWord_same (mm : Vector Word 256) (w : Word) {i k : Nat} (hk : k < 256) (h : i = k) :
    (setWord mm i w)[k] = w := by
  subst h
  simp [setWord, wordIndex, Nat.mod_eq_of_lt hk]

theorem getElem_setWord_other (mm : Vector Word 256) (w : Word) {i k : Nat} (hk : k < 256) (h : i % 256 ≠ k) :
    (setWord mm i w)[k] = mm[k] := by
  simp [setWord, wordIndex, h]

section
variable (mm : Vector Word 256) {j : Nat} (v : WorkVars)

/-- The eight words of block `j` are the working variables. -/
theorem storeBlock_inside (h : j < 32) :
    (storeBlock mm j v)[8 * j] = v.a ∧ (storeBlock mm j v)[8 * j + 1] = v.b ∧
    (storeBlock mm j v)[8 * j + 2] = v.c ∧ (storeBlock mm j v)[8 * j + 3] = v.d ∧
    (storeBlock mm j v)[8 * j + 4] = v.e ∧ (storeBlock mm j v)[8 * j + 5] = v.f ∧
    (storeBlock mm j v)[8 * j + 6] = v.g ∧ (storeBlock mm j v)[8 * j + 7] = v.h := by
  simp (disch := omega) only [storeBlock, getElem_setWord_same, getElem_setWord_other, and_self]

theorem storeBlock_outside (h : j < 32) (k : Fin 256) (hk : k.val / 8 ≠ j) : (storeBlock mm j v)[k] = mm[k] := by
  simp (disch := omega) only [storeBlock, Fin.getElem_fin, getElem_setWord_other]

end

/-- The words added are those of the block, none of their indices being reduced. -/
theorem addBlock_eq (src : Vector Word 256) (v : WorkVars) {j : Nat} (h : j < 32) : addBlock src j v =
    ⟨v.a + src[8 * j], v.b + src[8 * j + 1], v.c + src[8 * j + 2], v.d + src[8 * j + 3],
      v.e + src[8 * j + 4], v.f + src[8 * j + 5], v.g + src[8 * j + 6], v.h + src[8 * j + 7]⟩ := by
  simp (disch := omega) only [addBlock, getElem_wordIndex]

/-- One block: the words added, one round of `MIX`, and the variables stored. -/
theorem scrambleUpTo_succ (f : Bool) (mm rsl : Vector Word 256) {n : Nat} (hn : n < 64) :
    ∃ src : Vector Word 256, (n < 32 → src = rsl) ∧ (32 ≤ n → src = (scrambleUpTo f mm rsl n).2) ∧
      (n < 32 ∧ f = false → (scrambleUpTo f mm rsl (n + 1)).1 = mix (scrambleUpTo f mm rsl n).1) ∧
      (32 ≤ n ∨ f = true → (scrambleUpTo f mm rsl (n + 1)).1 =
        mix (addBlock src (n % 32) (scrambleUpTo f mm rsl n).1)) ∧
      (scrambleUpTo f mm rsl (n + 1)).2 =
        storeBlock (scrambleUpTo f mm rsl n).2 (n % 32) (scrambleUpTo f mm rsl (n + 1)).1 := by
  rcases Nat.lt_or_ge n 32 with hfirst | hsecond
  · refine ⟨rsl, fun _ => rfl, fun h => absurd hfirst h.not_gt, ?_⟩
    rw [scrambleUpTo, if_pos hfirst, Nat.mod_eq_of_lt hfirst]
    refine ⟨?_, ?_, rfl⟩
    · rintro ⟨-, rfl⟩
      rfl
    · rintro (h | rfl)
      · exact absurd hfirst h.not_gt
      · rfl
  · have hblock : n % 32 = n - 32 := by omega
    refine ⟨_, fun h => absurd h hsecond.not_gt, fun _ => rfl, fun h => absurd h.1 hsecond.not_gt, ?_⟩
    rw [scrambleUpTo, if_neg hsecond.not_gt, hblock]
    exact ⟨fun _ => rfl, rfl⟩

/-- Settles O32: the two passes are one run of 64 blocks, and each block's index is below 32, so that none of its word
indices is reduced. -/
theorem scrambleIsBlocksInOrder : Obligations.ScrambleIsBlocksInOrder := by
  intro f mm rsl
  refine ⟨fun n => (scrambleUpTo f mm rsl n).1, fun n => (scrambleUpTo f mm rsl n).2, ?_, rfl,
    scramble_eq_scrambleUpTo f mm rsl, fun n hn => ?_⟩
  · simp only [scrambleUpTo, scrambleStart, preRounds, mixTimes, golden]
  obtain ⟨src, hrsl, hmm, hnone, hadd, hstore⟩ := scrambleUpTo_succ f mm rsl hn
  have hj : n % 32 < 32 := Nat.mod_lt n (by decide)
  obtain ⟨h0, h1, h2, h3, h4, h5, h6, h7⟩ :=
    storeBlock_inside (scrambleUpTo f mm rsl n).2 (scrambleUpTo f mm rsl (n + 1)).1 hj
  rw [addBlock_eq src _ hj] at hadd
  rw [← hstore] at h0 h1 h2 h3 h4 h5 h6 h7
  refine ⟨⟨n % 32, hj⟩, src, _, _, _, _, rfl, rfl, rfl, rfl, rfl, hrsl, hmm, hnone, hadd,
    h0, h1, h2, h3, h4, h5, h6, h7, fun k hk => ?_⟩
  beta_reduce
  rw [hstore]
  exact storeBlock_outside _ _ hj k hk

/-! `BATCH` as a run of positions (R112, R113). -/

/-- The Generator after the head and the first `n` positions. -/
def Generator.batchUpTo (q : Generator) (n : Nat) : Generator :=
  ((List.finRange 256).take n).foldl Generator.batchPosition q.batchHead

theorem Generator.batchUpTo_succ (q : Generator) (i : Fin 256) :
    q.batchUpTo (i.val + 1) = (q.batchUpTo i.val).batchPosition i := by
  rw [Generator.batchUpTo, List.take_succ_eq_append_getElem (by simp), List.foldl_append, List.getElem_finRange]
  exact Eq.refl _

theorem Generator.batch_eq_batchUpTo (q : Generator) : q.batch = q.batchUpTo 256 := by
  have hlen : (List.finRange 256).length ≤ 256 := List.length_finRange.le
  unfold Generator.batch Generator.batchUpTo
  generalize List.finRange 256 = is at hlen
  rw [List.take_of_length_le hlen]

theorem selfMix_cases (i : Nat) (a : Word) :
    (i % 4 = 0 → selfMix i a = a ^^^ (a <<< 13)) ∧ (i % 4 = 1 → selfMix i a = a ^^^ (a >>> 6)) ∧
    (i % 4 = 2 → selfMix i a = a ^^^ (a <<< 2)) ∧ (i % 4 = 3 → selfMix i a = a ^^^ (a >>> 16)) := by
  refine ⟨fun h => ?_, fun h => ?_, fun h => ?_, fun h => ?_⟩ <;>
    simp only [selfMix, h]

/-- Settles O33: each position is one `batchPosition`, whose reads and writes are those of the rule. -/
theorem batchIsPositionsInOrder : Obligations.BatchIsPositionsInOrder := by
  refine ⟨fun n q => q.batchUpTo n, fun q => rfl, Generator.batch_eq_batchUpTo, fun q i h => ?_⟩
  have hstep := q.batchUpTo_succ ⟨i, h⟩
  dsimp only at hstep ⊢
  rw [hstep]
  generalize q.batchUpTo i = p
  obtain ⟨h0, h1, h2, h3⟩ := selfMix_cases i p.accA
  exact ⟨p.mm[i], selfMix i p.accA, _, _, rfl, h0, h1, h2, h3, rfl, rfl, rfl, rfl, rfl, rfl, rfl, rfl⟩

/-- Settles O34: no position touches `accC` or `cursor`, and the last one leaves in `accB` the word it stored at
`rsl[255]`. -/
theorem batchCountsAndEndsOnLastWord : Obligations.BatchCountsAndEndsOnLastWord := by
  intro q
  obtain ⟨is, -, ⟨before, hlast⟩, hbatch⟩ := Generator.batch_run
  obtain ⟨haccC, hcursor⟩ := Generator.batchPositions_keep is q.batchHead
  have haccB := Generator.batchPositions_last before 255 q.batchHead
  rw [← hlast] at haccB
  rw [hbatch]
  exact ⟨haccC, hcursor, haccB⟩

end Sys2Proof.Machine

/-!
PROOFS. What `SEED` leaves (`40_generator.md` R115 to R119) and the draws after it (R121, R123, R166).
-/

namespace Sys2Proof.Machine

/-- After a refill `accC` has counted the batch, and `accB` is its last word (R112, R113). -/
theorem Generator.refill_accumulators (q : Generator) :
    ({ q.batch with cursor := 0 } : Generator).accC = q.accC + 1 ∧
    ({ q.batch with cursor := 0 } : Generator).accB = ({ q.batch with cursor := 0 } : Generator).rsl[255] := by
  obtain ⟨haccC, -, haccB⟩ := batchCountsAndEndsOnLastWord q
  exact ⟨haccC, haccB⟩

section
variable (q : Generator) (f : Bool) (m : Memory) (len : Nat)

theorem Generator.seed_cursor : (q.seed f m len).cursor = 0 := rfl

theorem Generator.seed_accC : (q.seed f m len).accC = 1 :=
  (Generator.refill_accumulators _).1

theorem Generator.seed_accB : (q.seed f m len).accB = (q.seed f m len).rsl[255] :=
  (Generator.refill_accumulators _).2

end

/-- Settles O18: `SEED` ends with one refill, from accumulators that are 0. -/
theorem seedLeavesFirstBatch : Obligations.SeedLeavesFirstBatch := by
  intro f len s
  exact ⟨_, exec_seed f len s, s.gen.seed_cursor f s.ibuf len, s.gen.seed_accC f s.ibuf len,
    s.gen.seed_accB f s.ibuf len⟩

/-- Settles O17: the staged words are `stagedSeed`, and `State.seededBy` is one update of the Generator and
`STATUS`. -/
theorem seedResult : Obligations.SeedResult := by
  intro f len s
  refine ⟨_, stagedSeed s.ibuf len, exec_seed_eq_seededBy f len s, stagedSeed_getElem s.ibuf len, rfl,
    s.seededBy_seeded f len, ?_, ?_, ?_, rfl, fun k => ⟨rfl, rfl⟩⟩
  · exact State.succeed_err _
  · exact s.afterSuccess_flt (.seed f len)
  · exact s.afterSuccess_reserved (.seed f len)

/-- `SEED` on two states that stage the same seed words. -/
theorem exec_seed_same_gen (f : Bool) {s1 s2 : State} {len1 len2 : Nat}
    (h : ∀ k, k < 256 → seedWord s1.ibuf len1 k = seedWord s2.ibuf len2 k) :
    ∃ t1 t2, exec (.seed f len1) s1 = .next t1 ∧ exec (.seed f len2) s2 = .next t2 ∧ t1.gen = t2.gen :=
  ⟨_, _, exec_seed f len1 s1, exec_seed f len2 s2,
    Generator.seed_congr s1.gen s2.gen (congrArg (scramble f _) (stagedSeed_congr h))⟩

theorem seedWord_of_lt {m : Memory} {len k : Nat} (h : k < len) : seedWord m len k = zext32 (m.read k) :=
  if_pos h

theorem seedWord_of_le {m : Memory} {len k : Nat} (h : len ≤ k) : seedWord m len k = 0 :=
  if_neg h.not_gt

/-- Settles O38: in each corner the two seeds stage the same 256 words. -/
theorem seedLengthCorners : Obligations.SeedLengthCorners := by
  intro f s1 s2
  refine ⟨exec_seed_same_gen f fun k _ => rfl, fun len n hlen hn hsame hzero => exec_seed_same_gen f fun k hk => ?_,
    fun len hlen hsame => exec_seed_same_gen f fun k hk => ?_,
    fun len => ⟨_, exec_seed_eq_seededBy f len s1, State.succeed_err _, s1.seededBy_seeded f len⟩⟩
  · rcases Nat.lt_or_ge k len with hin | hout
    · rw [seedWord_of_lt hin, seedWord_of_lt (hin.trans_le hlen), hsame k hin]
    rcases Nat.lt_or_ge k n with hpad | hbeyond
    · rw [seedWord_of_le hout, seedWord_of_lt hpad, hzero k hout hpad]
      rfl
    · rw [seedWord_of_le hout, seedWord_of_le hbeyond]
  · rw [seedWord_of_lt (hk.trans_le hlen), seedWord_of_lt hk, hsame k hk]

/-! The null seed (R166). -/

/-- A Generator of zeros, to run the null seed on: which Generator it is does not matter (R120). -/
def Generator.zeros : Generator := ⟨Vector.replicate 256 0, Vector.replicate 256 0, 0, 0, 0, 0⟩

/-- The value the spec derives, by running the model. -/
theorem nullSeed_first_word : (Generator.zeros.seed false [] 0).rsl[0] = 0x9fc09148 := by
  decide +kernel

/-- Settles O35: the null seed leaves the same Generator on every state, and its first word is computed once. -/
theorem nullSeedFirstWord : Obligations.NullSeedFirstWord := by
  intro s
  have hgen : s.gen.seed false s.ibuf 0 = Generator.zeros.seed false [] 0 :=
    Generator.seed_congr s.gen Generator.zeros (scramble_false _ _ _)
  refine ⟨_, _, exec_seed_eq_seededBy false 0 s, exec_nextw_of_seeded (s.seededBy_seeded false 0), ?_⟩
  have hword : (s.gen.seed false s.ibuf 0).rsl[0] = 0x9fc09148 := hgen ▸ nullSeed_first_word
  exact hword

/-- Settles O31: the rule's worked values, by running `mix` on them. -/
theorem mixWorkedValues : Obligations.MixWorkedValues := by
  refine ⟨?_, ?_⟩
  · decide
  · decide

/-! Draws from the first word of a batch on (R121, R123). -/

section
variable {q : Generator}

theorem Generator.afterDraws_cursor_of_zero (h : q.cursor = 0) (n : Nat) : (q.afterDraws n).cursor.val = n % 256 := by
  rw [Generator.afterDraws_cursor, h]
  simp

/-- Draws that do not reach the end of the batch move `cursor` alone. -/
theorem Generator.afterDraws_of_lt (h : q.cursor = 0) {n : Nat} (hn : n < 256) :
    q.afterDraws n = { q with cursor := (q.afterDraws n).cursor } := by
  induction n with
  | zero => rfl
  | succ n ih =>
    have hcursor := Generator.afterDraws_cursor_of_zero h n
    have hstep := (Generator.advance_of_not_last (q := q.afterDraws n) (by omega)).1
    exact hstep.trans (congrArg (fun r : Generator => { r with cursor := (q.afterDraws n).advance.cursor })
      (ih (by omega)))

theorem Generator.afterDraws_succ_eq_advance (q : Generator) (n : Nat) :
    q.afterDraws (n + 1) = (q.afterDraws n).advance :=
  rfl

/-- Draw 256 refills: what stands there then is the batch of the Generator the draws began with. -/
theorem Generator.afterDraws_256 (h : q.cursor = 0) : q.afterDraws 256 = { q.batch with cursor := 0 } := by
  have hkept := Generator.afterDraws_of_lt h (n := 255) (by decide)
  calc q.afterDraws 256
    _ = (q.afterDraws 255).advance := q.afterDraws_succ_eq_advance 255
    _ = { (q.afterDraws 255).batch with cursor := 0 } :=
        Generator.advance_of_last (Generator.afterDraws_cursor_of_zero h 255)
    _ = { q.batch with cursor := 0 } := by
        rw [hkept]
        exact Generator.refill_congr rfl rfl rfl rfl

theorem Generator.afterDraws_accC (h : q.cursor = 0) (n : Nat) :
    (q.afterDraws n).accC = q.accC + BitVec.ofNat 32 (n / 256) := by
  induction n with
  | zero => simp [Generator.afterDraws]
  | succ n ih =>
    have hcursor := Generator.afterDraws_cursor_of_zero h n
    by_cases hlast : n % 256 = 255
    · have hstep := congrArg Generator.accC (Generator.advance_of_last (hcursor.trans hlast))
      have hdiv : (n + 1) / 256 = n / 256 + 1 := by omega
      rw [hdiv, BitVec.ofNat_add, ← add_assoc, ← ih]
      exact hstep.trans (batchCountsAndEndsOnLastWord (q.afterDraws n)).1
    · have hstep := congrArg Generator.accC
        (Generator.advance_of_not_last (q := q.afterDraws n) (by rwa [hcursor])).1
      have hdiv : (n + 1) / 256 = n / 256 := by omega
      rw [hdiv, ← ih]
      exact hstep

end

/-- `n` times `NEXTW` on a seeded machine are `n` draws. -/
theorem execScript_nextws (m : Memory) {s : State} (h : s.seeded = true) (n : Nat) :
    ∃ t, execScript (List.replicate n (m, .nextw)) s = .next t ∧ t.seeded = true ∧ t.gen = s.gen.afterDraws n := by
  induction n generalizing s with
  | zero => exact ⟨s, rfl, h, rfl⟩
  | succ n ih =>
    have hfirst := exec_nextw_of_seeded (s := { s with ibuf := m }) h
    obtain ⟨t, ht, hseeded, hgen⟩ := ih (s := ({ s with ibuf := m } : State).afterSuccess .nextw)
      ((State.succeed_seeded _).trans h)
    exact ⟨t, (execScript_cons_of_next hfirst).trans ht, hseeded, hgen.trans (s.gen.afterDraws_succ n)⟩

/-- Settles O40: the draws start at `cursor` 0 with `accC` 1; the first 256 leave the batch standing, and the refill
replaces it. -/
theorem batchBoundary : Obligations.BatchBoundary := by
  intro f len n s m
  have hzero : (s.seededBy f len).gen.cursor = 0 := s.gen.seed_cursor f s.ibuf len
  have hone : (s.seededBy f len).gen.accC = 1 := s.gen.seed_accC f s.ibuf len
  obtain ⟨b, hb, hseeded, hgen⟩ := execScript_nextws m (s.seededBy_seeded f len) n
  have hcursor : b.gen.cursor.val = n % 256 := by rw [hgen, Generator.afterDraws_cursor_of_zero hzero]
  refine ⟨_, b, _, exec_seed_eq_seededBy f len s, hb, hcursor, ?_, exec_nextw_of_seeded hseeded, fun hn => ?_, ?_⟩
  · rw [hgen, Generator.afterDraws_accC hzero, hone, BitVec.ofNat_add]
    rfl
  · have hrsl : b.gen.rsl = (s.seededBy f len).gen.rsl := by rw [hgen, Generator.afterDraws_of_lt hzero hn]
    simp [hrsl, hcursor, Nat.mod_eq_of_lt hn]
  · rintro rfl
    have hrsl : b.gen.rsl = (s.seededBy f len).gen.batch.rsl := by rw [hgen, Generator.afterDraws_256 hzero]
    simp [hrsl, hcursor]

end Sys2Proof.Machine

/-!
PROOFS. The cipher layer (`41_cipher.md`): the shift function as the floored remainder and its inverse (R143, R147),
bit 7 under `VERNAM` (R141), and a message split in two (R225).
-/

namespace Sys2Proof.Machine

/-- Settles O24: the two steps of the shift function are the floored remainder, which is below `MODULUS`. -/
theorem cshiftIsFlooredRemainder : Obligations.CshiftIsFlooredRemainder := by
  intro mode ch shift modulus start hlegal _
  exact ⟨cshift_toNat mode ch shift hlegal, cshift_not_outsideAlphabet mode ch shift hlegal⟩

/-- Settles O25: the signed shifts of the two modes cancel out, in either order. -/
theorem cshiftModesAreInverse : Obligations.CshiftModesAreInverse := by
  intro ch shift modulus start hlegal hch
  exact ⟨cshift_cshift_of_cancel (add_neg_cancel _) hlegal hch, cshift_cshift_of_cancel (neg_add_cancel _) hlegal hch⟩

/-- A character of the keystream is at most 126, so that its bit 7 is 0 (R124). -/
theorem printable_bit_seven (w : Word) : (printable w).getLsbD 7 = false := by
  have hrange : (printable w).toNat < 2 ^ 7 := (printable_range w).2.trans_lt (by decide)
  rw [← BitVec.testBit_toNat, Nat.testBit_lt_two_pow hrange]

/-- Settles O22: XOR with a character whose bit 7 is 0 keeps bit 7. -/
theorem vernamKeepsBitSeven : Obligations.VernamKeepsBitSeven := by
  intro len s hs hlen
  refine ⟨_, exec_vernam_of_accepted hs hlen, fun k hk => ?_⟩
  have hkey : (s.gen.keyChar k).getLsbD 7 = false := printable_bit_seven _
  rw [State.runCipher_read_obuf_of_lt s _ len hk, BitVec.getLsbD_xor, hkey, Bool.xor_false]

/-! A message split in two (R225). -/

/-- The message loop over the first `m` bytes and then, from the Generator it leaves, over the next `n`, against the one
loop over all of them. -/
theorem State.runCipher_split (s : State) (f : Byte → Byte → Byte) {m n : Nat} {second : Memory}
    (hsecond : ∀ k, k < n → second.read k = s.ibuf.read (m + k)) :
    (∀ k, k < m → (s.runCipher f m).obuf.read k = (s.runCipher f (m + n)).obuf.read k) ∧
    (∀ k, k < n → (({ s.runCipher f m with ibuf := second } : State).runCipher f n).obuf.read k =
      (s.runCipher f (m + n)).obuf.read (m + k)) ∧
    (({ s.runCipher f m with ibuf := second } : State).runCipher f n).gen = (s.runCipher f (m + n)).gen := by
  have hgen : ({ s.runCipher f m with ibuf := second } : State).gen = s.gen.afterDraws m := s.runCipher_gen f m
  refine ⟨fun k hk => ?_, fun k hk => ?_, ?_⟩
  · rw [State.runCipher_read_obuf_of_lt s f m hk, State.runCipher_read_obuf_of_lt s f (m + n) (by omega)]
  · rw [State.runCipher_read_obuf_of_lt _ f n hk, State.runCipher_read_obuf_of_lt s f (m + n) (by omega), hgen,
      Generator.keyChar_afterDraws, ← hsecond k hk]
  · simp only [State.runCipher_gen, Generator.afterDraws_add]

/-- Settles O44: each of the three commands is accepted and is one run of the message loop. -/
theorem splitMessageGivesTheSameOutput : Obligations.SplitMessageGivesTheSameOutput := by
  intro m n s whole second hs hlen hsecond
  have hm : m ≤ s.maxLen := by omega
  have hn : n ≤ s.maxLen := by omega
  have hs1 : ∀ f, ({ State.runCipher { s with ibuf := whole } f m with ibuf := second } : State).seeded = true :=
    fun f => (State.runCipher_seeded { s with ibuf := whole } f m).trans hs
  refine ⟨⟨_, _, _, exec_vernam_of_accepted hs hlen, exec_vernam_of_accepted hs hm,
      exec_vernam_of_accepted (hs1 _) hn, State.runCipher_split { s with ibuf := whole } _ hsecond⟩,
    fun mode modulus start hlegal hin => ?_⟩
  have hin2 : ∀ k, k < n → ¬ OutsideAlphabet modulus start (second.read k) := fun k hk => by
    rw [hsecond k hk]
    exact hin (m + k) (by omega)
  exact ⟨_, _, _, exec_caesar_of_accepted mode hs hlen (fun _ => hlegal) hin,
    exec_caesar_of_accepted mode hs hm (fun _ => hlegal) (fun k hk => hin k (by omega)),
    exec_caesar_of_accepted mode (hs1 _) hn (fun _ => hlegal) hin2,
    State.runCipher_split { s with ibuf := whole } _ hsecond⟩

end Sys2Proof.Machine

/-!
PROOFS. One move of the host (`10_state.md` section 3, `70_reset_and_hazards.md` section 1): a command (R31), an access
to a register or a byte (R29, R35, R58), and `RESET` (R210), with the state it leaves (R36).
-/

namespace Sys2Proof.Machine

/-! Commands. -/

/-- Settles O5: the words, decoded. -/
theorem workedEncodingsDecode : Obligations.WorkedEncodingsDecode := by
  refine ⟨?_, ?_, ?_, ?_, ?_, ?_, ?_, ?_⟩ <;> decide

section
variable {s : State} {w : CmdWord} {rest : List HostMove} (h : s.host = .writeReg 0 w :: rest)
include h

theorem step_of_command {i : Instr} (hw : decode w = .command i) : step s = exec i { s with host := rest } := by
  rw [step_writeCmd h, hw]

theorem step_of_illegal {e : Illegal} (hw : decode w = .illegal e) :
    step s = .next (State.raise { s with host := rest } .illegalCommand) := by
  rw [step_writeCmd h, hw]

end

/-- Settles O6: a write of register number 0 is the one move that runs the decoder. -/
theorem stepRunsDecodedCommand : Obligations.StepRunsDecodedCommand := by
  intro s w rest h
  exact ⟨fun i hw => step_of_command h hw,
    fun e hw => ⟨_, step_of_illegal h hw, faultedWith_raise { s with host := rest } .illegalCommand⟩⟩

/-! Other moves of the host, one equation per case. -/

section
variable (s : State) {k : Nat}

theorem hostWriteIbuf_of_lt (v : Byte) (h : k < s.maxLen) :
    s.hostWriteIbuf k v = .next { s with ibuf := s.ibuf.write k v } :=
  if_pos h

theorem hostWriteIbuf_of_le (v : Byte) (h : s.maxLen ≤ k) : s.hostWriteIbuf k v = .fault .noSuchElement :=
  if_neg h.not_gt

theorem hostRead_ibuf_of_lt (h : k < s.maxLen) :
    s.hostRead (.ibuf k) = .next { s with rdata := some (zext32 (s.ibuf.read k)) } := by
  simp only [State.hostRead, State.portValue, if_pos h]

theorem hostRead_ibuf_of_le (h : s.maxLen ≤ k) : s.hostRead (.ibuf k) = .fault .noSuchElement := by
  simp only [State.hostRead, State.portValue, if_neg h.not_gt]

theorem hostRead_obuf_of_lt (h : k < s.maxLen) :
    s.hostRead (.obuf k) = .next { s with rdata := some (zext32 (s.obuf.read k)) } := by
  simp only [State.hostRead, State.portValue, if_pos h]

theorem hostRead_obuf_of_le (h : s.maxLen ≤ k) : s.hostRead (.obuf k) = .fault .noSuchElement := by
  simp only [State.hostRead, State.portValue, if_neg h.not_gt]

theorem hostRead_reg_of_le {n : Nat} (h : 4 ≤ n) : s.hostRead (.reg n) = .fault .noSuchElement := by
  simp only [State.hostRead, State.portValue, State.registerValue, registerAt_eq_none.mpr h]

end

/-- A write of a register other than `CMD` stops the step (R35, R50). -/
theorem step_writeReg_stops {s : State} {n : Nat} {w : CmdWord} {rest : List HostMove}
    (h : s.host = .writeReg n w :: rest) :
    (0 < n → n < 4 → step s = .refused .noSuchMove) ∧ (4 ≤ n → step s = .fault .noSuchElement) := by
  rw [step_writeReg h]
  obtain ⟨hn, -⟩ | ⟨-, hn, hw⟩ | ⟨hn, hw⟩ := hostWriteReg_cases { s with host := rest } n w
  · exact ⟨fun hpos => absurd hn hpos.ne', fun hhigh => absurd hhigh (by omega)⟩
  · rw [hw]
    exact ⟨fun _ _ => rfl, fun hhigh => absurd hhigh hn.not_ge⟩
  · rw [hw]
    exact ⟨fun _ hlow => absurd hn hlow.not_ge, fun _ => rfl⟩

/-- Settles O7: each move is one of the cases above. -/
theorem hostAccessesTouchOneByteOrNothing : Obligations.HostAccessesTouchOneByteOrNothing := by
  refine ⟨fun s k v rest h => ⟨fun hk => ?_, fun hk => ?_⟩, fun s rest => ?_, fun s h => step_idle h⟩
  · exact ⟨_, (step_writeIbuf h).trans (hostWriteIbuf_of_lt { s with host := rest } v hk), rfl,
      Memory.read_write_same s.ibuf k v, fun j hj => Memory.read_write_other s.ibuf v hj⟩
  · exact (step_writeIbuf h).trans (hostWriteIbuf_of_le { s with host := rest } v hk)
  · exact ⟨step_read, step_read, step_read, step_read,
      fun n hn h => (step_read h).trans (hostRead_reg_of_le _ hn),
      fun n w hpos hlow h => (step_writeReg_stops h).1 hpos hlow, fun n w hn h => (step_writeReg_stops h).2 hn,
      fun k h => ⟨fun hk => (step_read h).trans (hostRead_ibuf_of_lt { s with host := rest } hk),
        fun hk => (step_read h).trans (hostRead_ibuf_of_le { s with host := rest } hk)⟩,
      fun k h => ⟨fun hk => (step_read h).trans (hostRead_obuf_of_lt { s with host := rest } hk),
        fun hk => (step_read h).trans (hostRead_obuf_of_le { s with host := rest } hk)⟩⟩

/-- Settles O8: the state after `RESET` is one record, whose buffers read as the last pair for each index. -/
theorem resetEventUnseeds : Obligations.ResetEventUnseeds := by
  intro s p rest h
  refine ⟨_, step_reset h, rfl, rfl, rfl, rfl, rfl, rfl, fun k v before after hk hafter => ⟨?_, ?_⟩, rfl, rfl, rfl,
    by simp [State.seeded, statusSeeded], fun i hcause => exec_faults_of_firstCause (.notSeeded hcause)⟩
  · intro hp
    rw [State.afterReset_ibuf, hp]
    exact Memory.read_ofCells_last s.maxLen k v before after hk hafter
  · intro hp
    rw [State.afterReset_obuf, hp]
    exact Memory.read_ofCells_last s.maxLen k v before after hk hafter

/-- Settles O9: the registers are 0, and so is every field of `STATUS`. -/
theorem resetRegistersAreZero : Obligations.ResetRegistersAreZero := by
  exact ⟨rfl, rfl, rfl, by decide, by decide, by decide⟩

/-- Settles O10: the buffers list nothing, `STATUS` is 0, and the Generator is not seeded. -/
theorem invariantHoldsAtReset : Obligations.InvariantHoldsAtReset := by
  refine ⟨by decide, ⟨rfl, rfl⟩, ⟨rfl, rfl⟩, by decide, by decide, ?_, by decide, ?_⟩
  · exact fun herr => absurd (by decide : State.reset.err = 0) herr
  · exact fun hseeded => absurd hseeded (by decide)

end Sys2Proof.Machine

/-!
PROOFS. The rules about the whole machine: who writes each part of the state (`10_state.md` section 3), the invariant
that every step keeps, and what an unseeded Generator can reach (R36, R182).
-/

namespace Sys2Proof.Machine

/-! `STATUS` (R32). -/

theorem FirstCause.ne_seed {i : Instr} {s : State} {F : CommandFault} (h : FirstCause i s F) (f : Bool) (len : Nat) :
    i ≠ .seed f len := by
  rintro rfl
  cases h <;> contradiction

theorem State.raise_status_fields (s : State) (F : CommandFault) :
    ((s.raise F).seeded = true ↔ s.seeded = true) ∧
    ((s.raise F).flt = true ↔ s.flt = true ∨ (s.raise F).err ≠ 0) ∧
    statusReserved (s.raise F).status = statusReserved s.status :=
  ⟨by rw [State.raise_seeded],
    iff_of_true (s.raise_flt F) (.inr ((s.raise_err F).trans_ne F.code_ne_zero)), by simp⟩

/-- What a command does to each field of `STATUS`. -/
theorem exec_status_fields {i : Instr} {s t : State} (h : exec i s = .next t) :
    (t.seeded = true ↔ s.seeded = true ∨ ∃ f len, i = .seed f len) ∧
    (t.flt = true ↔ s.flt = true ∨ t.err ≠ 0) ∧ statusReserved t.status = statusReserved s.status := by
  obtain ⟨F, hF, rfl⟩ | ⟨-, rfl⟩ := exec_next_cases h
  · obtain ⟨hseeded, hflt, hreserved⟩ := s.raise_status_fields F
    have hnot_seed : ¬ ∃ f len, i = .seed f len := fun ⟨f, len, heq⟩ => hF.ne_seed f len heq
    exact ⟨hseeded.trans (or_iff_left hnot_seed).symm, hflt, hreserved⟩
  · exact ⟨s.afterSuccess_seeded i, by simp, by simp⟩

/-- What a write of `CMD` does to each field of `STATUS`, the word being legal or not. -/
theorem step_writeCmd_status_fields {s t : State} {w : CmdWord} {rest : List HostMove}
    (h : s.host = .writeReg 0 w :: rest) (hstep : step s = .next t) :
    (t.seeded = true ↔ s.seeded = true ∨ ∃ f len, decode w = .command (.seed f len)) ∧
    (t.flt = true ↔ s.flt = true ∨ t.err ≠ 0) ∧ statusReserved t.status = statusReserved s.status := by
  cases hw : decode w with
  | command i =>
    rw [step_of_command h hw] at hstep
    simp only [Decoded.command.injEq]
    exact exec_status_fields (s := { s with host := rest }) hstep
  | illegal e =>
    rw [step_of_illegal h hw] at hstep
    obtain rfl := Host.Outcome.next.inj hstep
    obtain ⟨hseeded, hflt, hreserved⟩ := State.raise_status_fields { s with host := rest } .illegalCommand
    exact ⟨hseeded.trans (or_iff_left (by simp)).symm, hflt, hreserved⟩

/-- Neither a byte access nor a read of the host touches `STATUS`. -/
theorem step_keeps_status {s t : State} (hstep : step s = .next t) (hreset : ∀ p rest, s.host ≠ .reset p :: rest)
    (hcmd : ∀ w rest, s.host ≠ .writeReg 0 w :: rest) : t.status = s.status := by
  obtain ⟨w, rest, i, h, -⟩ | ⟨w, rest, e, h, -⟩ | ⟨k, v, rest, -, -, rfl⟩ | ⟨p, rest, v, -, rfl⟩ | ⟨p, rest, h, -⟩ |
    ⟨-, rfl⟩ := step_cases hstep
  · exact absurd h (hcmd w rest)
  · exact absurd h (hcmd w rest)
  · rfl
  · rfl
  · exact absurd h (hreset p rest)
  · rfl

/-- Settles O12: a step that is no `RESET` writes `CMD`, or leaves `STATUS`. -/
theorem statusFieldsHaveTheirWriters : Obligations.StatusFieldsHaveTheirWriters := by
  intro s t hstep hreset
  by_cases hcmd : ∃ w rest, s.host = .writeReg 0 w :: rest
  · obtain ⟨w, rest, h⟩ := hcmd
    obtain ⟨hseeded, hflt, hreserved⟩ := step_writeCmd_status_fields h hstep
    have hhead : ∀ {w' rest'}, s.host = .writeReg 0 w' :: rest' → w' = w := by simp [h]
    refine ⟨fun hs => hseeded.mpr (.inl hs), fun hs => hflt.mpr (.inl hs), hreserved,
      fun hno => absurd h (hno w rest), fun ht => ?_, fun w' rest' f len h' hw => ?_, fun _ _ _ => hflt⟩
    · exact (hseeded.mp ht).imp_right fun ⟨f, len, hw⟩ => ⟨w, rest, f, len, h, hw⟩
    · obtain rfl := hhead h'
      exact hseeded.mpr (.inr ⟨f, len, hw⟩)
  · have hno : ∀ w rest, s.host ≠ .writeReg 0 w :: rest := fun w rest h => hcmd ⟨w, rest, h⟩
    have hstatus := step_keeps_status hstep hreset hno
    have hseeded : t.seeded = s.seeded := congrArg statusSeeded hstatus
    have hflt : t.flt = s.flt := congrArg statusFlt hstatus
    exact ⟨hseeded.trans, hflt.trans, congrArg statusReserved hstatus, fun _ => hstatus, fun ht => .inl (hseeded ▸ ht),
      fun w rest f len h => absurd h (hno w rest), fun w rest h => absurd h (hno w rest)⟩

/-! `RESP`, `OBUF`, `OLEN` and the Generator (R28, R30, R33 to R35). -/

/-- A step is a `RESET`, a command that succeeded, or leaves these four parts of the state. -/
theorem step_output_cases {s t : State} (hstep : step s = .next t) :
    (∃ p rest, s.host = .reset p :: rest) ∨
    (∃ w rest i, s.host = .writeReg 0 w :: rest ∧ decode w = .command i ∧
      t = State.afterSuccess { s with host := rest } i) ∨
    (t.gen = s.gen ∧ t.obuf = s.obuf ∧ t.resp = s.resp ∧ t.olen = s.olen) := by
  obtain ⟨w, rest, i, h, hw, hexec⟩ | ⟨w, rest, e, -, -, rfl⟩ | ⟨k, v, rest, -, -, rfl⟩ | ⟨p, rest, v, -, rfl⟩ |
    ⟨p, rest, h, -⟩ | ⟨-, rfl⟩ := step_cases hstep
  · obtain ⟨F, -, rfl⟩ | ⟨-, ht⟩ := exec_next_cases hexec
    · exact .inr (.inr ⟨rfl, rfl, rfl, rfl⟩)
    · exact .inr (.inl ⟨w, rest, i, h, hw, ht⟩)
  · exact .inr (.inr ⟨rfl, rfl, rfl, rfl⟩)
  · exact .inr (.inr ⟨rfl, rfl, rfl, rfl⟩)
  · exact .inr (.inr ⟨rfl, rfl, rfl, rfl⟩)
  · exact .inl ⟨p, rest, h⟩
  · exact .inr (.inr ⟨rfl, rfl, rfl, rfl⟩)

/-- Settles O45: of the successes only those of `NEXTW`, `NEXTC` and `CSHIFT` write `RESP`. -/
theorem respHasItsWriters : Obligations.RespHasItsWriters := by
  intro s t hstep hchanged
  obtain hreset | ⟨w, rest, i, h, hw, rfl⟩ | ⟨-, -, hresp, -⟩ := step_output_cases hstep
  · exact .inl hreset
  · refine .inr ⟨w, rest, i, h, hw, State.afterSuccess_err _ i, ?_⟩
    cases i with
    | nextw => exact .inl rfl
    | nextc => exact .inr (.inl rfl)
    | cshift mode ch shift modulus start => exact .inr (.inr ⟨mode, ch, shift, modulus, start, rfl⟩)
    | seed | vernam | caesar => exact absurd rfl hchanged
  · exact absurd hresp hchanged

/-- Settles O46: of the successes only those of `VERNAM` and `CAESAR` write `OBUF` and `OLEN`. -/
theorem outputHasItsWriters : Obligations.OutputHasItsWriters := by
  intro s t hstep hchanged
  obtain hreset | ⟨w, rest, i, h, hw, rfl⟩ | ⟨-, hobuf, -, holen⟩ := step_output_cases hstep
  · exact .inl hreset
  · have herr := State.afterSuccess_err { s with host := rest } i
    cases i with
    | seed | nextw | nextc | cshift => exact absurd hchanged (not_or.mpr ⟨not_not_intro rfl, not_not_intro rfl⟩)
    | vernam len =>
      exact .inr ⟨w, rest, len, h, herr, .inl hw, rfl, fun k => State.runCipher_read_obuf_of_le _ _ len⟩
    | caesar mode modulus start len =>
      exact .inr ⟨w, rest, len, h, herr, .inr ⟨mode, modulus, start, hw⟩, rfl,
        fun k => State.runCipher_read_obuf_of_le _ _ len⟩
  · exact absurd hchanged (not_or.mpr ⟨not_not_intro hobuf, not_not_intro holen⟩)

/-- Settles O47: a success that is no `SEED` leaves the Generator after its draws, and so leaves it where there are
none. -/
theorem generatorHasItsWriters : Obligations.GeneratorHasItsWriters := by
  intro s t hstep hchanged
  obtain hreset | ⟨w, rest, i, h, hw, rfl⟩ | ⟨hgen, -⟩ := step_output_cases hstep
  · exact .inl hreset
  · refine .inr ⟨w, rest, i, h, hw, State.afterSuccess_err _ i, or_iff_not_imp_left.mpr fun hseed => ?_⟩
    have hgen := State.afterSuccess_gen { s with host := rest } (i := i) fun f len heq => hseed ⟨f, len, heq⟩
    refine Nat.pos_of_ne_zero fun hnone => hchanged ?_
    rw [hgen, hnone]
    rfl
  · exact absurd hgen hchanged

/-! The invariant. -/

/-- The Generator part of the invariant: `accB` is the last word of the batch (R26, R113). -/
def Generator.Settled (q : Generator) : Prop := q.accB = q.rsl[255]

theorem Generator.settled_seed (q : Generator) (f : Bool) (m : Memory) (len : Nat) : (q.seed f m len).Settled :=
  q.seed_accB f m len

theorem Generator.Settled.advance {q : Generator} (h : q.Settled) : q.advance.Settled := by
  obtain ⟨-, heq⟩ | ⟨-, heq⟩ := q.advance_cases
  · rw [heq]
    exact (Generator.refill_accumulators q).2
  · rw [heq]
    exact h

theorem Generator.Settled.afterDraws {q : Generator} (h : q.Settled) (n : Nat) : (q.afterDraws n).Settled := by
  induction n with
  | zero => exact h
  | succ n ih => exact ih.advance

section
variable {s : State}

theorem State.Inv.settled (h : s.Inv) : s.seeded = true → s.gen.Settled := by
  obtain ⟨-, -, -, -, -, -, -, hgen⟩ := h
  exact hgen

theorem State.Inv.raise (h : s.Inv) (F : CommandFault) : (s.raise F).Inv := by
  obtain ⟨hmax, hibuf, hobuf, hreserved, -, -, holen, hgen⟩ := h
  refine ⟨hmax, hibuf, hobuf, by simpa using hreserved, ?_, fun _ => s.raise_flt F, holen, ?_⟩
  · rw [State.raise_err]
    exact F.code_range.2
  · rw [State.raise_seeded]
    exact hgen

/-- A success that leaves `OBUF` and `OLEN`, and a Generator that is settled where it has to be. -/
theorem State.Inv.succeed (h : s.Inv) {q : Generator} (w : Word) (hq : s.seeded = true → q.Settled) :
    (({ s with gen := q, resp := w } : State).succeed).Inv := by
  obtain ⟨hmax, hibuf, hobuf, hreserved, -, -, holen, -⟩ := h
  refine ⟨hmax, hibuf, hobuf, by simpa using hreserved, ?_, fun herr => absurd (State.succeed_err _) herr, holen, ?_⟩
  · rw [State.succeed_err]
    decide
  · rw [State.succeed_seeded]
    exact hq

theorem State.Inv.seededBy (h : s.Inv) (f : Bool) (len : Nat) : (s.seededBy f len).Inv := by
  obtain ⟨hmax, hibuf, hobuf, hreserved, -, -, holen, -⟩ := h
  refine ⟨hmax, hibuf, hobuf, by simpa [State.seededBy] using hreserved, ?_,
    fun herr => absurd (State.succeed_err _) herr, holen, fun _ => s.gen.settled_seed f s.ibuf len⟩
  rw [State.seededBy, State.succeed_err]
  decide

theorem State.Inv.runCipher (h : s.Inv) (f : Byte → Byte → Byte) {len : Nat} (hlen : len ≤ s.maxLen) :
    (s.runCipher f len).Inv := by
  obtain ⟨hmax, hibuf, hobuf, hreserved, -, -, -, hgen⟩ := h
  refine ⟨hmax, hibuf, cipherLoop_wf_within f s.ibuf len 0 s.maxLen s.gen s.obuf (by omega) hobuf,
    by simpa using hreserved, ?_, fun herr => absurd (s.runCipher_err f len) herr, ?_, ?_⟩
  · rw [State.runCipher_err]
    decide
  · rw [State.runCipher_olen, BitVec.toNat_ofNat]
    exact (Nat.mod_le len _).trans hlen
  · rw [State.runCipher_seeded, State.runCipher_gen]
    exact fun hs => Generator.Settled.afterDraws (hgen hs) len

/-- Every success keeps the invariant; one over a message has checked its length. -/
theorem State.Inv.afterSuccess (h : s.Inv) {i : Instr} (hnone : NoCause i s) : (s.afterSuccess i).Inv := by
  have hgen := h.settled
  obtain ⟨-, hlen, -, -⟩ := hnone
  cases i with
  | seed f len => exact h.seededBy f len
  | nextw => exact h.succeed _ fun hs => (hgen hs).advance
  | nextc => exact h.succeed _ fun hs => (hgen hs).advance
  | vernam len => exact h.runCipher _ (Nat.not_lt.mp hlen)
  | cshift mode ch shift modulus start => exact h.succeed _ hgen
  | caesar mode modulus start len => exact h.runCipher _ (Nat.not_lt.mp hlen)

theorem State.Inv.exec (h : s.Inv) {i : Instr} {t : State} (hexec : exec i s = .next t) : t.Inv := by
  obtain ⟨F, -, rfl⟩ | ⟨hnone, rfl⟩ := exec_next_cases hexec
  · exact h.raise F
  · exact h.afterSuccess hnone

theorem State.Inv.writeIbuf (h : s.Inv) {k : Nat} (hk : k < s.maxLen) (v : Byte) :
    ({ s with ibuf := s.ibuf.write k v } : State).Inv := by
  obtain ⟨hmax, ⟨hwf, hwithin⟩, hrest⟩ := h
  exact ⟨hmax, ⟨Memory.wf_write _ k v hwf, Memory.within_write _ k _ v hk hwithin⟩, hrest⟩

theorem State.Inv.afterReset (h : s.Inv) (p : PowerOn) : (s.afterReset p).Inv := by
  obtain ⟨hmax, -⟩ := h
  have hstatus : statusReserved 0 = 0 ∧ statusErr 0 = 0 ∧ statusSeeded 0 = false := by decide
  obtain ⟨hreserved, herr, hseeded⟩ := hstatus
  have herr_le : (statusErr 0).toNat ≤ 5 := by decide
  exact ⟨hmax, Memory.ofCells_wf_within s.maxLen p.ibuf, Memory.ofCells_wf_within s.maxLen p.obuf, hreserved, herr_le,
    fun hne => absurd herr hne, Nat.zero_le _, fun hset => absurd hset (ne_true_of_eq_false hseeded)⟩

end

/-- Settles O11: each kind of step keeps each part of the invariant; `host` and `rdata` are in none of them. -/
theorem everyStepKeepsTheInvariant : Obligations.EveryStepKeepsTheInvariant := by
  intro s t h hstep
  obtain ⟨w, rest, i, -, -, hexec⟩ | ⟨w, rest, e, -, -, rfl⟩ | ⟨k, v, rest, -, hk, rfl⟩ | ⟨p, rest, v, -, rfl⟩ |
    ⟨p, rest, -, rfl⟩ | ⟨-, rfl⟩ := step_cases hstep
  · exact State.Inv.exec (s := { s with host := rest }) h hexec
  · exact State.Inv.raise (s := { s with host := rest }) h .illegalCommand
  · exact State.Inv.writeIbuf h hk v
  · exact h
  · exact State.Inv.afterReset (s := { s with host := rest }) h p
  · exact h

/-! The Generator before the first `SEED` (R36, R182). -/

/-- The machine with another Generator. -/
def State.withGen (s : State) (q : Generator) : State := { s with gen := q }

/-- Two outcomes that nothing but the Generators tells apart, and not even those after a `SEED`. -/
def SameButUnseededGen (o o' : Host.Outcome State Fault Refusal) : Prop :=
  (∃ t q', o = .next t ∧ o' = .next (t.withGen q') ∧ (t.seeded = true → q' = t.gen)) ∨
  (∃ r, o = .fault r ∧ o' = .fault r) ∨ (∃ r, o = .refused r ∧ o' = .refused r)

/-- A next state that is still unseeded, with the other Generator in it. -/
theorem sameButUnseededGen_next {t : State} (q : Generator) (h : t.seeded = false) :
    SameButUnseededGen (.next t) (.next (t.withGen q)) :=
  .inl ⟨t, q, rfl, rfl, fun hseeded => absurd hseeded (ne_true_of_eq_false h)⟩

section
variable {s : State} (q : Generator)

/-- A command on an unseeded machine cannot tell one Generator from another: those that would draw fault, `CSHIFT` does
not look, and `SEED` forgets it. -/
theorem exec_withGen (i : Instr) (h : s.seeded = false) :
    SameButUnseededGen (exec i s) (exec i (s.withGen q)) := by
  have hsame : SameChecks i s (s.withGen q) := ⟨rfl, rfl, fun _ _ => rfl⟩
  obtain ⟨F, hs, hq⟩ | ⟨⟨hcause, -⟩, hs, hq⟩ := hsame.exec_both
  · rw [hs, hq]
    exact sameButUnseededGen_next q ((s.raise_seeded F).trans h)
  · cases i with
    | seed f len => exact .inl ⟨_, _, hs, hq, fun _ => Generator.seed_congr q s.gen rfl⟩
    | nextw | nextc | vernam | caesar => exact absurd h hcause
    | cshift =>
      rw [hs, hq]
      exact sameButUnseededGen_next q ((State.succeed_seeded _).trans h)

theorem hostWriteIbuf_withGen (k : Nat) (v : Byte) (h : s.seeded = false) :
    SameButUnseededGen (s.hostWriteIbuf k v) ((s.withGen q).hostWriteIbuf k v) := by
  rcases Nat.lt_or_ge k s.maxLen with hlt | hge
  · rw [hostWriteIbuf_of_lt s v hlt, hostWriteIbuf_of_lt (s.withGen q) v hlt]
    exact sameButUnseededGen_next q h
  · exact .inr (.inl ⟨_, hostWriteIbuf_of_le s v hge, hostWriteIbuf_of_le (s.withGen q) v hge⟩)

/-- The host cannot read the Generator (D24). -/
theorem portValue_withGen (p : HostPort) : (s.withGen q).portValue p = s.portValue p := by
  cases p <;> rfl

theorem hostRead_withGen (p : HostPort) (h : s.seeded = false) :
    SameButUnseededGen (s.hostRead p) ((s.withGen q).hostRead p) := by
  simp only [State.hostRead, portValue_withGen]
  cases s.portValue p with
  | next v => exact sameButUnseededGen_next q h
  | fault r => exact .inr (.inl ⟨r, rfl, rfl⟩)
  | refused r => exact .inr (.inr ⟨r, rfl, rfl⟩)

theorem step_writeReg_withGen {n : Nat} {w : CmdWord} {rest : List HostMove} (hhost : s.host = .writeReg n w :: rest)
    (h : s.seeded = false) : SameButUnseededGen (step s) (step (s.withGen q)) := by
  have hhost' : (s.withGen q).host = .writeReg n w :: rest := hhost
  obtain ⟨hlow, hhigh⟩ := step_writeReg_stops hhost
  obtain ⟨hlow', hhigh'⟩ := step_writeReg_stops hhost'
  rcases Nat.lt_or_ge n 4 with hlt | hge
  · rcases Nat.eq_zero_or_pos n with rfl | hpos
    · cases hw : decode w with
      | command i =>
        rw [step_of_command hhost hw, step_of_command hhost' hw]
        exact exec_withGen (s := { s with host := rest }) q i h
      | illegal e =>
        rw [step_of_illegal hhost hw, step_of_illegal hhost' hw]
        exact sameButUnseededGen_next q ((State.raise_seeded { s with host := rest } _).trans h)
    · exact .inr (.inr ⟨_, hlow hpos hlt, hlow' hpos hlt⟩)
  · exact .inr (.inl ⟨_, hhigh hge, hhigh' hge⟩)

/-- Every step from an unseeded machine: a `RESET` brings the same Generator to both, and no other move but `SEED`
looks at it or writes it. -/
theorem step_withGen (h : s.seeded = false) : SameButUnseededGen (step s) (step (s.withGen q)) := by
  rcases hhost : s.host with - | ⟨mv, rest⟩
  · have hhost' : (s.withGen q).host = [] := hhost
    rw [step_idle hhost, step_idle hhost']
    exact sameButUnseededGen_next q h
  have hhost' : (s.withGen q).host = mv :: rest := hhost
  cases mv with
  | writeReg n w => exact step_writeReg_withGen q hhost h
  | writeIbuf k v =>
    rw [step_writeIbuf hhost, step_writeIbuf hhost']
    exact hostWriteIbuf_withGen (s := { s with host := rest }) q k v h
  | read p =>
    rw [step_read hhost, step_read hhost']
    exact hostRead_withGen (s := { s with host := rest }) q p h
  | reset p =>
    rw [step_reset hhost, step_reset hhost']
    exact .inl ⟨_, p.gen, rfl, rfl, fun _ => rfl⟩

end

/-- Settles O48: the outcome of a step from an unseeded machine is the same but for the Generator, whichever of the
three it is. -/
theorem unseededGeneratorIsUnobservable : Obligations.UnseededGeneratorIsUnobservable := by
  intro s q h
  obtain ⟨t, q', hs, hq, hgen⟩ | ⟨r, hs, hq⟩ | ⟨r, hs, hq⟩ := step_withGen q h
  · rw [hs]
    refine ⟨?_, nofun, nofun⟩
    rintro _ ⟨⟩
    exact ⟨q', hq, hgen⟩
  · rw [hs]
    refine ⟨nofun, ?_, nofun⟩
    rintro _ ⟨⟩
    exact hq
  · rw [hs]
    refine ⟨nofun, nofun, ?_⟩
    rintro _ ⟨⟩
    exact hq

end Sys2Proof.Machine
